-- ==== Sys2Proof/Word.lean ====
section
/-! DEFINITION. The two word types of the block: the 32-bit word of REG and OUT (R15, R35), which is also a
command word and a colour (R27, R50), and the ROM byte (R34). -/

namespace Sys2Proof

/-- A 32-bit word: a register, a command word, a colour, a pixel. -/
abbrev Word := BitVec 32

/-- An 8-bit ROM byte. -/
abbrev Byte := BitVec 8

end Sys2Proof
end

