-- ==== Sys2Proof/Syntax.lean ====
section
/-! DEFINITION. The commands, one constructor for each row of spec/opcode_table.json, and the fields of a command
word (R51). -/

namespace Sys2Proof

/-- The five commands (R52). A command word carries no operand but the two placement flags; offsets and counts come
from the argument registers (R55). -/
inductive Instr where
  /-- BUILD, build the deinterleave table (R80). -/
  | build
  /-- RENDER, decode one tile to a 32x32 image (R81). -/
  | render
  /-- COMPOSE, compose a run of tiles into a grid (R83). -/
  | compose
  /-- META, assemble one 128x64 meta-tile (R84). `msub`: sub-tiles are placed masked (R53). -/
  | metaTile (msub : Bool)
  /-- METAGRID, compose a run of meta-tiles into a grid (R85). `msub` as for META; `mgrid`: meta-tiles are placed
  masked (R53). -/
  | metaGrid (msub mgrid : Bool)
  deriving DecidableEq, Repr

/-- The fields of any command word, valid or not (R51). -/
structure CmdFields where
  /-- bits 3:0 -/
  op : BitVec 4
  /-- bit 4 -/
  msub : Bool
  /-- bit 5 -/
  mgrid : Bool
  /-- bits 31:6 -/
  reserved : BitVec 26
  deriving DecidableEq, Repr

/-- The fields of a word (R51). -/
def CmdFields.ofWord (w : Word) : CmdFields where
  op := w.extractLsb' 0 4
  msub := w.getLsbD 4
  mgrid := w.getLsbD 5
  reserved := w.extractLsb' 6 26

/-- The fields each command is written with (R51, R52). -/
def Instr.fields : Instr → CmdFields
  | .build => ⟨1, false, false, 0⟩
  | .render => ⟨2, false, false, 0⟩
  | .compose => ⟨3, false, false, 0⟩
  | .metaTile msub => ⟨4, msub, false, 0⟩
  | .metaGrid msub mgrid => ⟨5, msub, mgrid, 0⟩

end Sys2Proof
end

