-- ==== Sys2Proof/WellFormed.lean ====
section
/-! DEFINITION. Which command fields make a valid command (R51 to R54), said field by field. The decoder of
Sys2Proof/Decode.lean reads whole words against the match and mask pairs of R54 instead. -/

namespace Sys2Proof

/-- OP 0x0 and 0x6 to 0xF are reserved (R52). -/
def CmdFields.opDefined (f : CmdFields) : Bool := 1 ≤ f.op.toNat && f.op.toNat ≤ 5

/-- Bits 31:6 must be 0 (R51). -/
def CmdFields.reservedClear (f : CmdFields) : Bool := f.reserved == 0

/-- MSUB belongs to META and METAGRID only (R53, R54). -/
def CmdFields.msubAllowed (f : CmdFields) : Bool := !f.msub || f.op == 4 || f.op == 5

/-- MGRID belongs to METAGRID only (R53, R54). -/
def CmdFields.mgridAllowed (f : CmdFields) : Bool := !f.mgrid || f.op == 5

/-- The fields of a valid command word (R54). -/
def CmdFields.wellFormed (f : CmdFields) : Bool :=
  f.opDefined && f.reservedClear && f.msubAllowed && f.mgridAllowed

/-- A command is well formed when its fields are. Its constructors carry only the flags R54 lets them carry, so every
command is. -/
def Instr.wellFormed (i : Instr) : Bool := i.fields.wellFormed

end Sys2Proof
end

