-- ==== Sys2Proof/Decode.lean ====
section
/-! DEFINITION. The decoder of a command word, by the match and mask pairs of R54, and the encoder (R51, R52, R59).
There is one format and one word; CMD is accessed whole, so no byte order enters (R42, R50). -/

namespace Sys2Proof

/-- Why a word is no valid command word (R54). Each becomes the error BadCommand (R95). -/
inductive BadWord where
  /-- one of bits 31:6 is set -/
  | reservedBits
  /-- OP is 0x0 or 0x6 to 0xF -/
  | reservedOp
  /-- MSUB or MGRID is set on a command that has no such flag -/
  | flagNotAllowed
  deriving DecidableEq, Repr

/-- The name of the first thing wrong with a word that matches no row of R54. -/
def badWordReason (w : Word) : BadWord :=
  if w.extractLsb' 6 26 ≠ 0 then .reservedBits
  else if 1 ≤ (w.extractLsb' 0 4).toNat ∧ (w.extractLsb' 0 4).toNat ≤ 5 then .flagNotAllowed
  else .reservedOp

/-- The decoder, total on words (R54): the rows of spec/opcode_table.json with their match and mask. -/
def decode (w : Word) : Except BadWord Instr :=
  if w = 0x00000001 then .ok .build
  else if w = 0x00000002 then .ok .render
  else if w = 0x00000003 then .ok .compose
  else if w &&& 0xFFFFFFEF = 0x00000004 then .ok (.metaTile (w.getLsbD 4))
  else if w &&& 0xFFFFFFCF = 0x00000005 then .ok (.metaGrid (w.getLsbD 4) (w.getLsbD 5))
  else .error (badWordReason w)

/-- The instruction an instruction of `nbits` bits numbered as spec/opcode_table.json numbers them stands for. A
command is one 32-bit word (R50), bit 0 the least significant. -/
def decodeTableWord (nbits w : Nat) : Option Instr :=
  (decode (BitVec.ofNat 32 (w % 2 ^ nbits))).toOption

/-- The word with the given fields (R51). -/
def CmdFields.toWord (f : CmdFields) : Word :=
  f.reserved ++ BitVec.ofBool f.mgrid ++ BitVec.ofBool f.msub ++ f.op

/-- The command word of a command (R51, R59). -/
def encode (i : Instr) : Word := i.fields.toWord

/-- The mnemonic of a command in the host notation, with its suffixes in the order `.S` `.G` (R58). -/
def Instr.mnemonic : Instr → String
  | .build => "BUILD"
  | .render => "RENDER"
  | .compose => "COMPOSE"
  | .metaTile msub => "META" ++ (if msub then ".S" else "")
  | .metaGrid msub mgrid => "METAGRID" ++ (if msub then ".S" else "") ++ (if mgrid then ".G" else "")

/-- The commands that raise the source's preconditions and write an image: OP 0x2 to 0x5 (R52, R56). -/
def Instr.isImage : Instr → Bool
  | .build => false
  | .render => true
  | .compose => true
  | .metaTile _ => true
  | .metaGrid _ _ => true

end Sys2Proof
end

