-- ==== Sys2Proof/Config.lean ====
section
/-! DEFINITION. What an implementation or its platform fixes (R10, 92_eei_decisions.md "Open parameters") and the
free values (93_implementation_defined.md "any value"). -/

namespace Sys2Proof

/-- The spec's open parameters: the ROM and canvas capacities and where the platform puts the three spaces
(R10, R34; D5, D6, D23). -/
structure Params where
  /-- `ROM_CAP`, in bytes. -/
  romCap : Nat
  /-- `CANVAS_CAP`, in 32-bit words. -/
  canvasCap : Nat
  /-- `REG_BASE`, a system byte address. -/
  regBase : Nat
  /-- `OUT_BASE`, a system byte address. -/
  outBase : Nat
  /-- `ROM_BASE`, a system byte address. -/
  romBase : Nat
  deriving DecidableEq, Repr, Inhabited

/-- The size of the REG space in bytes (R15, R34). -/
def regBytes : Nat := 0x4000

/-- Two address ranges, each a base and a size, share no address. -/
abbrev rangesDisjoint (b n c m : Nat) : Prop := b + n ≤ c ∨ c + m ≤ b

/-- The constraints the spec puts on its open parameters: `1 <= ROM_CAP <= 2^32 - 1`, `CANVAS_CAP >= 8192` (R10)
and bases that do not overlap (92_eei_decisions.md, Open parameters). -/
abbrev Params.legal (p : Params) : Prop :=
  1 ≤ p.romCap ∧ p.romCap ≤ 2 ^ 32 - 1 ∧ 8192 ≤ p.canvasCap ∧
  rangesDisjoint p.regBase regBytes p.outBase (4 * p.canvasCap) ∧
  rangesDisjoint p.regBase regBytes p.romBase p.romCap ∧
  rangesDisjoint p.outBase (4 * p.canvasCap) p.romBase p.romCap

/-- One legal configuration: the spec's reference `CANVAS_CAP` of 2,097,152 words (R10), the largest `ROM_CAP`, and
bases one after the other (DESIGN CHOICE, log 4: it only stands in for an illegal `Config.rawParams`). -/
def Params.reference : Params where
  romCap := 2 ^ 32 - 1
  canvasCap := 2097152
  regBase := 0
  outBase := 0x1000000
  romBase := 0x100000000

/-- Any values at all for the open parameters. No body: nothing can be proved of them (log 4). -/
opaque Config.rawParams : Params

/-- The configuration the machine is reset with: any values that meet the constraints of R10. -/
def Config.params : Params := if Config.rawParams.legal then Config.rawParams else Params.reference

/-- The free values ("any value" of 93_implementation_defined.md U1, U3, U4), one for each index. No body: a claim
holds whatever they are (log 5). -/
opaque Config.freeWord : Nat → Word

end Sys2Proof
end

