-- ==== Sys2Proof/Machine/State.lean ====
section
/-! DEFINITION. The state of the block (R14, R15, R33), the turns of its agents, and the reasons a step stops. Plain
data throughout. -/

namespace Sys2Proof.Machine

open Sys2Proof

/-- STATUS (R17), one field for each field of the register. Its other bits do not exist: they read 0 and ignore
writes. -/
structure Status where
  /-- bit 0, and the engine state: `true` is BUSY, `false` is IDLE (R13) -/
  busy : Bool
  /-- bit 1 -/
  done : Bool
  /-- bit 2 -/
  err : Bool
  /-- bits 7:4 -/
  errCode : BitVec 4
  /-- bit 8 -/
  tblv : Bool
  /-- bit 9 -/
  outv : Bool
  /-- bit 16 -/
  wlost : Bool
  deriving DecidableEq, Repr

/-- STATUS after reset (R33). -/
def Status.reset : Status := ⟨false, false, false, 0, false, false, false⟩

/-- The command latch (R25), which the host cannot see. -/
structure Latch where
  /-- the command word -/
  w : Word
  /-- OFFSET -/
  off : Word
  /-- COUNT[15:0] -/
  cnt : BitVec 16
  /-- ROMLEN -/
  len : Word
  /-- PALCNT -/
  palCnt : BitVec 9
  deriving DecidableEq, Repr

/-- The cleared latch (R25, R33; log 8). -/
def Latch.empty : Latch := ⟨0, 0, 0, 0, 0⟩

/-- A sparse memory of 32-bit words: addresses strictly rising. An unlisted word holds no value (R26, R31). -/
abbrev Words := List (Nat × Word)

/-- The canonical form of a word memory below `cap`: strictly rising addresses, all of them below `cap`. -/
abbrev Words.wf (cap : Nat) (m : Words) : Prop :=
  m.Pairwise (fun p q => p.1 < q.1) ∧ ∀ p ∈ m, p.1 < cap

/-- The ROM buffer (R32): a sparse list of bytes, addresses strictly rising. -/
abbrev Memory := List Host.Cell

/-- What an unlisted ROM byte reads as (DESIGN CHOICE, log 3: every ROM is some list, so this only fixes how it is
written down and what State.reset holds). -/
def Memory.unlisted : Byte := 0

/-- The canonical form of a ROM of `cap` bytes: strictly rising addresses, all below `cap`, and no byte listed that
an unlisted address reads as anyway. -/
abbrev Memory.wf (cap : Nat) (m : Memory) : Prop :=
  m.Pairwise (fun p q => p.1 < q.1) ∧ ∀ p ∈ m, p.1 < cap ∧ p.2 ≠ Memory.unlisted

/-- What a host access names: a byte offset in REG or in OUT, or a system address that the bases place (R34, R35). -/
inductive Target where
  | reg (off : Nat)
  | out (off : Nat)
  | sys (addr : Nat)
  deriving DecidableEq, Repr

/-- One turn of one agent (R106): what may happen between two states of the block. -/
inductive Turn where
  /-- the engine's turn: it takes its perform step if BUSY = 1 (R57) -/
  | engine
  /-- the host reads one 32-bit word (R35) -/
  | hostRead (t : Target)
  /-- the host writes one 32-bit word (R35) -/
  | hostWrite (t : Target) (v : Word)
  /-- the platform asserts the reset input (R108) -/
  | resetAssert
  /-- the platform releases the reset input (R108) -/
  | resetRelease
  /-- the ROM's owner sets one ROM byte (R39) -/
  | romSet (a : Nat) (b : Byte)
  deriving DecidableEq, Repr

/-- The state of the block, with the configuration it was built with and the model's own three last fields. -/
structure State where
  /-- ROM_CAP, CANVAS_CAP and the bases (R10), which no step changes -/
  params : Params
  /-- the level of the reset input (R108) -/
  inReset : Bool
  /-- CMD (R16) -/
  cmd : Word
  /-- STATUS (R17) -/
  status : Status
  /-- OFFSET (R18) -/
  offset : Word
  /-- COUNT[15:0] (R19) -/
  count : BitVec 16
  /-- ROMLEN (R20) -/
  romLen : Word
  /-- PALCNT[8:0] (R21) -/
  palCnt : BitVec 9
  /-- ERRADDR (R22) -/
  errAddr : Word
  /-- ERRINFO (R23) -/
  errInfo : Word
  /-- OUTW (R24) -/
  outW : Word
  /-- OUTH (R24) -/
  outH : Word
  /-- the command latch (R25) -/
  latch : Latch
  /-- the palette RAM (R26): the entries the host has written since reset -/
  pal : Words
  /-- the deinterleave table RAM (R29) -/
  tbl : Vector (BitVec 10) 1024
  /-- the canvas memory (R31): the words written since reset -/
  canvas : Words
  /-- the ROM buffer (R32), an input of the block -/
  rom : Memory
  /-- the MODEL's own: the turns still to come, oldest first; when none is left the engine moves (log 2) -/
  schedule : List Turn
  /-- the MODEL's own: the word the host's last read returned (log 9) -/
  readData : Word
  /-- the MODEL's own: the index of the next free value (log 5) -/
  freeCount : Nat
  deriving DecidableEq, Repr

/-- Why the machine stops with a fault. Every one is safe: the model stops where hardware would go on with a value
the spec does not give. -/
inductive Fault where
  /-- Raised by RENDER, COMPOSE, META and METAGRID when they read a palette entry the host has not written since
  reset (R26, R115, D43; 93_implementation_defined.md U1 `fault`). Safe. -/
  | paletteEntryUnwritten
  /-- Raised by a ROM read, or a set ROM byte, at or beyond ROM_CAP, which does not exist (R32). No command reaches
  it while ROMLEN is legal (R20). Safe. -/
  | romAddressAbsent
  /-- Raised by an image command that would write a canvas word at or beyond CANVAS_CAP, which does not exist (R31).
  No command reaches it while the parameters are legal (R94). Safe. -/
  | canvasAddressAbsent
  /-- Raised by a host access at a REG offset of 0x4000 or more, which does not exist (R15, R34). Safe. -/
  | regOffsetAbsent
  deriving DecidableEq, Repr

/-- Why the model refuses to give a step a meaning. -/
inductive Refusal where
  /-- An instruction without a meaning: the mnemonic of its row in spec/opcode_table.json. Raised by no arm of this
  model. Safe. -/
  | notModelled (mnemonic : String)
  /-- Raised when a ROM byte changes while BUSY = 1 (R113, D24; 93_implementation_defined.md U5 `refuse`). Safe. -/
  | romChangedWhileBusy
  /-- Raised by a host access while reset is asserted (R108; 93_implementation_defined.md U7 `refuse`). Safe. -/
  | hostAccessDuringReset
  /-- Raised by a host access to the ROM space: the loader is out of scope (R5, R34). Safe. -/
  | hostAccessToRom
  /-- Raised by a host access to a system address in none of the block's spaces (R34). Safe. -/
  | addressNotOfThisBlock
  deriving DecidableEq, Repr

/-- The machine right after reset (R33): every register 0, the engine IDLE, the latch cleared, no palette entry and
no canvas word holding a value (log 14), TBLV 0. Reset is released, the configuration is any legal one, no turn is to come, and
the ROM's bytes all read as an unlisted byte does (log 3). The table's contents, which nothing can observe while
TBLV = 0, are written as zeros (log 7). -/
def State.reset : State where
  params := Config.params
  inReset := false
  cmd := 0
  status := Status.reset
  offset := 0
  count := 0
  romLen := 0
  palCnt := 0
  errAddr := 0
  errInfo := 0
  outW := 0
  outH := 0
  latch := Latch.empty
  pal := []
  tbl := Vector.replicate 1024 0
  canvas := []
  rom := []
  schedule := []
  readData := 0
  freeCount := 0

end Sys2Proof.Machine
end

