-- ==== Sys2Proof/Machine/Flags.lean ====
section
/-! DEFINITION. STATUS: its word as the host reads it, and every way it changes (R17). The block has no flags but
these (R13). -/

namespace Sys2Proof.Machine

open Sys2Proof

/-- The error codes a command can complete with (R87), PaletteIndexInvalid among them although nothing raises it
(R91). -/
inductive ErrCode where
  | inputMissing
  | paletteTooSmall
  | outOfRange
  | paletteIndexInvalid
  | tableNotBuilt
  | countZero
  | canvasOverflow
  | badCommand
  deriving DecidableEq, Repr

/-- The number of an error code in STATUS.ERRCODE (R87). -/
def ErrCode.number : ErrCode → BitVec 4
  | .inputMissing => 1
  | .paletteTooSmall => 2
  | .outOfRange => 3
  | .paletteIndexInvalid => 4
  | .tableNotBuilt => 5
  | .countZero => 6
  | .canvasOverflow => 7
  | .badCommand => 8

/-- STATUS as the host reads it; reserved bits read 0 (R17). -/
def Status.word (st : Status) : Word :=
  (0 : BitVec 15) ++ BitVec.ofBool st.wlost ++ (0 : BitVec 6) ++ BitVec.ofBool st.outv ++ BitVec.ofBool st.tblv ++
    st.errCode ++ (0 : BitVec 1) ++ BitVec.ofBool st.err ++ BitVec.ofBool st.done ++ BitVec.ofBool st.busy

/-- STATUS at the acceptance of the command word `v`: BUSY set, DONE, ERR and ERRCODE cleared, and OUTV cleared when
`v` is a valid image command (R56). -/
def Status.accept (v : Word) (st : Status) : Status :=
  let clearsImage := match decode v with
    | .ok i => i.isImage
    | .error _ => false
  { st with busy := true, done := false, err := false, errCode := 0, outv := st.outv && !clearsImage }

/-- STATUS at a success completion (R100): ERR and ERRCODE keep their acceptance values. -/
def Status.succeed (st : Status) : Status := { st with busy := false, done := true }

/-- STATUS at an error completion (R99). -/
def Status.fail (c : ErrCode) (st : Status) : Status :=
  { st with errCode := c.number, err := true, busy := false, done := true }

/-- A host write was dropped because BUSY = 1 (R37). -/
def Status.lost (st : Status) : Status := { st with wlost := true }

/-- BUILD's write to STATUS (R80). -/
def Status.tableBuilt (st : Status) : Status := { st with tblv := true }

/-- An image command's write to STATUS (R81, R83 to R85). -/
def Status.imageValid (st : Status) : Status := { st with outv := true }

/-- A host write of `v` to STATUS (R17, R101): bit 1 clears DONE, ERR and ERRCODE together, bit 16 clears WLOST, and
every other bit is read-only. -/
def Status.writeOneClear (v : Word) (st : Status) : Status :=
  { st with
    done := st.done && !v.getLsbD 1
    err := st.err && !v.getLsbD 1
    errCode := if v.getLsbD 1 then 0 else st.errCode
    wlost := st.wlost && !v.getLsbD 16 }

end Sys2Proof.Machine
end

