-- ==== Sys2Proof/Machine/Operands.lean ====
section
/-! DEFINITION. The fixed geometry (R6 to R9), the operands a command reads from the latch (R25, R55), the addresses
it computes from them (R73 to R76), and ERRINFO (R23). All address arithmetic is exact on naturals (R11). -/

namespace Sys2Proof.Machine

open Sys2Proof

/-! ## Geometry -/

/-- `TILE_W` and `TILE_H` (R6). -/
def tileSide : Nat := 32
/-- `TILE_PIXELS` (R6). -/
def tilePixels : Nat := 1024
/-- `TILE_BYTES` (R6). -/
def tileBytes : Nat := 512
/-- `META_W` (R6). -/
def metaW : Nat := 128
/-- `META_H` (R6). -/
def metaH : Nat := 64
/-- `META_SUBS` (R6). -/
def metaSubs : Nat := 8
/-- `META_DESC_BYTES` (R6). -/
def metaDescBytes : Nat := 16
/-- The size of a descriptor field in bytes (R6). -/
def fieldBytes : Nat := 2
/-- `MAX_COLUMNS` (R7). -/
def maxColumns : Nat := 16
/-- `WALL_BASE`, the ROM offset of sub-tile index 0 (R8; the literal is unaudited, so it stands here once). -/
def wallBase : Nat := 0x12EF26
/-- `PAL_MIN` (R9). -/
def palMin : Nat := 16
/-- `PAL_CAP` (R10). -/
def palCap : Nat := 256

/-! ## Operands of the latched command -/

/-- `off` (R25, R55). -/
def State.argOff (s : State) : Nat := s.latch.off.toNat
/-- `cnt` (R25, R55). -/
def State.argCnt (s : State) : Nat := s.latch.cnt.toNat
/-- `len` (R25, R55). -/
def State.argLen (s : State) : Nat := s.latch.len.toNat
/-- `pc_n` (R25, R55). -/
def State.argPalCnt (s : State) : Nat := s.latch.palCnt.toNat

/-! ## Grid layout (R73) -/

/-- `C`, the columns of a grid of `cnt` cells. -/
def gridCols (cnt : Nat) : Nat := min cnt maxColumns
/-- `ceil_div` (R11). -/
def ceilDiv (a b : Nat) : Nat := (a + b - 1) / b
/-- `R`, the rows of a grid of `cnt` cells. -/
def gridRows (cnt : Nat) : Nat := ceilDiv cnt (gridCols cnt)
/-- `W`, the width in pixels of a grid of `cnt` cells of width `cw`. -/
def gridW (cw cnt : Nat) : Nat := cw * gridCols cnt
/-- `H`, the height in pixels of a grid of `cnt` cells of height `ch`. -/
def gridH (ch cnt : Nat) : Nat := ch * gridRows cnt
/-- The column of `origin(k)`. -/
def cellX (cw cnt k : Nat) : Nat := cw * (k % gridCols cnt)
/-- The row of `origin(k)`. -/
def cellY (ch cnt k : Nat) : Nat := ch * (k / gridCols cnt)

/-! ## ROM offsets of a command's units -/

/-- Where tile `k` of a COMPOSE starts (R83). -/
def tileOff (off k : Nat) : Nat := off + tileBytes * k
/-- Where the descriptor of meta-tile `m` starts (R85). -/
def descOff (off m : Nat) : Nat := off + metaDescBytes * m
/-- Where field `k` of the descriptor at `d` starts (R74). -/
def fieldOff (d k : Nat) : Nat := d + fieldBytes * k
/-- Where the sub-tile of an index starts (R75). -/
def subTileOff (index : Byte) : Nat := wallBase + tileBytes * index.toNat
/-- The column of `subpos` (R76). -/
def subX (k : Nat) : Nat := (k / 2) * tileSide
/-- The row of `subpos` (R76). -/
def subY (k : Nat) : Nat := (k % 2) * tileSide

/-! ## ERRINFO (R23) -/

/-- ERRINFO with its three fields. -/
def errInfoWord (unit : BitVec 16) (sub : BitVec 3) (phase : BitVec 1) : Word :=
  (0 : BitVec 11) ++ phase ++ (0 : BitVec 1) ++ sub ++ unit

/-- ERRINFO of the 512-byte range of unit `u`, sub-tile `k` (R90). -/
def tileInfo (u k : Nat) : Word := errInfoWord (BitVec.ofNat 16 u) (BitVec.ofNat 3 k) 0

/-- ERRINFO of the descriptor field `k` of unit `u` (R90). -/
def fieldInfo (u k : Nat) : Word := errInfoWord (BitVec.ofNat 16 u) (BitVec.ofNat 3 k) 1

/-- A placement mode (R53, R71). -/
inductive Mode where
  | copy
  | mask
  deriving DecidableEq, Repr

/-- The mode a flag selects: 1 masked, 0 copy (R53). -/
def Mode.ofFlag (flag : Bool) : Mode := if flag then .mask else .copy

end Sys2Proof.Machine
end

