-- ==== Sys2Proof/Machine/Ops.lean ====
section
/-! DEFINITION. The named operations over memories and registers: reading and writing ROM, PAL, TBL and CANVAS,
acceptance (R56), the two completions (R99, R100), the acknowledge (R101), reset (R108), and the monad a command's
perform step runs in. -/

namespace Sys2Proof.Machine

open Sys2Proof

/-! ## Lists of cells -/

/-- Put a value at an address of a list whose addresses rise. -/
def insertCell {β : Type} (a : Nat) (v : β) : List (Nat × β) → List (Nat × β)
  | [] => [(a, v)]
  | (b, u) :: m =>
    if a < b then (a, v) :: (b, u) :: m
    else if a = b then (a, v) :: m
    else (b, u) :: insertCell a v m

/-- Take an address out of a list. -/
def eraseCell {β : Type} (a : Nat) (m : List (Nat × β)) : List (Nat × β) := m.filter (fun c => c.1 != a)

/-! ## Word memories: PAL and CANVAS -/

/-- The word at an address, if it holds a value. -/
def Words.read (m : Words) (a : Nat) : Option Word := m.lookup a

/-- Write one word. -/
def Words.write (m : Words) (a : Nat) (v : Word) : Words := insertCell a v m

/-- Write words at addresses 0, 1, 2, …; the words beyond keep what they held (R31). -/
def Words.storeRun (ws : List Word) (m : Words) : Words :=
  ws.zipIdx.map (fun p => (p.2, p.1)) ++ m.filter (fun c => ws.length ≤ c.1)

/-! ## The ROM buffer -/

/-- The byte at a ROM offset. -/
def Memory.read (m : Memory) (a : Nat) : Byte := (m.lookup a).getD Memory.unlisted

/-- Set one ROM byte; setting what an unlisted byte reads as takes the entry out. -/
def Memory.write (m : Memory) (a : Nat) (v : Byte) : Memory :=
  if v = Memory.unlisted then eraseCell a m else insertCell a v m

/-! ## The perform step's monad -/

/-- An error a command raises: `Error(CODE, addr, info)` (R12). -/
structure CmdError where
  code : ErrCode
  addr : Nat
  info : Word
  deriving DecidableEq, Repr

/-- What ends a command early: an error, which completes it (R99), or a fault, which stops the model. -/
inductive Stop where
  | raised (e : CmdError)
  | fault (f : Fault)
  deriving DecidableEq, Repr

/-- A computation of the perform step: a value, or the first thing that ends it. -/
abbrev Perf (α : Type) := Except Stop α

/-- `if not ok: raise Error(code, addr, info)` (R12). -/
def require (ok : Bool) (code : ErrCode) (addr : Nat) (info : Word) : Perf Unit :=
  if ok then .ok () else .error (.raised ⟨code, addr, info⟩)

/-! ## What a command reads -/

/-- `ROM[a]` (R12, R32). A byte at or beyond ROM_CAP does not exist (log 16). -/
def romByte (s : State) (a : Nat) : Perf Byte :=
  if a < s.params.romCap then .ok (Memory.read s.rom a) else .error (.fault .romAddressAbsent)

/-- `MemRead(ROM, a, 2)`, big-endian (R12, R40). -/
def romField (s : State) (a : Nat) : Perf (BitVec 16) := do
  let hi ← romByte s a
  let lo ← romByte s (a + 1)
  pure (hi ++ lo)

/-- `PAL[n]` as a command reads it: an entry that holds no value is a fault (R26, D43; log 6). -/
def palColour (s : State) (n : Nat) : Perf Word :=
  match Words.read s.pal n with
  | some c => .ok c
  | none => .error (.fault .paletteEntryUnwritten)

/-- `TBL[i]` (R12, R29). -/
def tblEntry (s : State) (i : BitVec 10) : BitVec 10 := s.tbl[i.toNat]'i.isLt

/-! ## Acceptance -/

/-- The latch as acceptance of the word `v` fills it (R25, R56). -/
def latchOf (v : Word) (s : State) : Latch := ⟨v, s.offset, s.count, s.romLen, s.palCnt⟩

/-- A command is accepted: the host writes `v` to CMD while BUSY = 0 (R56). -/
def acceptCommand (v : Word) (s : State) : State :=
  { s with
    cmd := v
    latch := latchOf v s
    status := s.status.accept v
    errAddr := 0
    errInfo := 0 }

/-! ## Completion: the block's form of taking an exception, and the return from it -/

/-- Error completion of a command that raised an error (R99): ERRADDR and ERRINFO take the error's address and
information, STATUS its code, ERR and DONE; nothing else changes. -/
def errorCompletion (e : CmdError) (s : State) : State :=
  { s with
    errAddr := BitVec.ofNat 32 e.addr
    errInfo := e.info
    status := s.status.fail e.code }

/-- Success completion of a command whose writes have taken effect (R100). -/
def successCompletion (s : State) : State := { s with status := s.status.succeed }

/-- Return from completion: the host's write of `v` to STATUS (R17, R101). -/
def acknowledge (v : Word) (s : State) : State := { s with status := s.status.writeOneClear v }

/-- The perform step of a command (R57): its writes and a success completion, or an error completion that leaves
everything else as it was, or a fault. -/
def completeCommand (s : State) : Perf State → Host.Outcome State Fault Refusal
  | .ok t => .next (successCompletion t)
  | .error (.raised e) => .next (errorCompletion e s)
  | .error (.fault f) => .fault f

/-- The error an invalid command word raises (R95). -/
def badCommandError (s : State) : CmdError := ⟨.badCommand, s.argOff, 0⟩

/-! ## The checks the commands share (R96) -/

/-- InputMissing, PaletteTooSmall and TableNotBuilt, in that order (R88, R89, R92). -/
def checkPreconditions (s : State) : Perf Unit := do
  require (s.argLen != 0) .inputMissing s.argOff 0
  require (palMin ≤ s.argPalCnt) .paletteTooSmall s.argOff 0
  require s.status.tblv .tableNotBuilt s.argOff 0

/-- CountZero, then CanvasOverflow for a grid of cells of `cw` by `ch` pixels (R93, R94). -/
def checkGrid (s : State) (cw ch : Nat) : Perf Unit := do
  require (s.argCnt != 0) .countZero s.argOff 0
  require (gridW cw s.argCnt * gridH ch s.argCnt ≤ s.params.canvasCap) .canvasOverflow s.argOff 0

/-- The `n` ROM bytes at `a` lie below `len`, on the exact sum (R68, R90). -/
def checkRange (s : State) (a n : Nat) (info : Word) : Perf Unit :=
  require (a + n ≤ s.argLen) .outOfRange a info

/-! ## Host writes while a command runs, and reset -/

/-- A host write to an argument register, CMD or PAL: performed while BUSY = 0, dropped with WLOST set while
BUSY = 1 (R37). -/
def unlessBusy (s t : State) : State := if s.status.busy then { s with status := s.status.lost } else t

/-- Reset is asserted (R33, R108; log 14): every piece of the block's state takes its reset value and a command in
progress is abandoned. The ROM, the configuration and the model's own fields are not the block's. -/
def applyReset (s : State) : State :=
  { State.reset with
    params := s.params
    inReset := true
    rom := s.rom
    schedule := s.schedule
    readData := s.readData
    freeCount := s.freeCount }

end Sys2Proof.Machine
end

