-- ==== Sys2Proof/Machine/Datapath.lean ====
section
/-! DEFINITION. The datapath (40_datapath.md): the deinterleave permutation, the nibble unpack, colour indexing, the
masked blend, placement, and the images made of them. An image gives the colour at each word address, row-major
(R12); reading one may end in a fault. -/

namespace Sys2Proof.Machine

open Sys2Proof

/-! ## The deinterleave table (R60 to R63) -/

/-- The `destination` of R60 for the coordinates `(x, y)`. -/
def tableDest (x y : Nat) : Nat := 512 * (y % 2) + x % 2 + 32 * (x / 2) + 2 * (y / 2)

/-- The `source` of R60 for the coordinates `(x, y)`. -/
def tableSource (x y : Nat) : Nat := x + 32 * y

/-- The `x` whose destination is `i`: bits `{i[8:5], i[0]}` (R61). -/
def tableX (i : BitVec 10) : Nat := 2 * (i.toNat / 32 % 16) + i.toNat % 2

/-- The `y` whose destination is `i`: bits `{i[4:1], i[9]}` (R61). -/
def tableY (i : BitVec 10) : Nat := 2 * (i.toNat / 2 % 16) + i.toNat / 512

/-- `T[i]` (R60): the source of the coordinates whose destination is `i`. R60 sets every entry exactly once, so its
loop and this form are the same table (log 11). -/
def tableEntry (i : BitVec 10) : BitVec 10 := BitVec.ofNat 10 (tableSource (tableX i) (tableY i))

/-- The whole table `T` (R60). -/
def builtTable : Vector (BitVec 10) 1024 :=
  ⟨((List.range 1024).map (fun i => tableEntry (BitVec.ofNat 10 i))).toArray, by simp⟩

/-- `Tinv[j]` (R63): the raster index at which the nibble of stream index `j` appears. -/
def tableInv (j : BitVec 10) : BitVec 10 := BitVec.ofNat 10 (tableDest (j.toNat % 32) (j.toNat / 32))

/-! ## Nibble unpack and colour indexing (R64 to R66) -/

/-- The nibble of a byte at an even (high) or odd (low) stream index (R41, R64). -/
def nibbleOf (b : Byte) (j : BitVec 10) : BitVec 4 :=
  if j.toNat % 2 = 0 then b.extractLsb' 4 4 else b.extractLsb' 0 4

/-- `nib(off, j)` (R64). -/
def nib (s : State) (off : Nat) (j : BitVec 10) : Perf (BitVec 4) := do
  let b ← romByte s (off + j.toNat / 2)
  pure (nibbleOf b j)

/-- The colour at each address of an image. -/
abbrev Image := Nat → Perf Word

/-- `decodeTile(off)`, 32 pixels wide, in raster order (R66). -/
def decodeTile (s : State) (off : Nat) : Image := fun i => do
  let n ← nib s off (tblEntry s (BitVec.ofNat 10 i))
  palColour s n.toNat

/-- The check every decoding command makes after its range checks: no nibble of the tile at `off` reaches `pc_n`
(R65, R91). It reports the ROM offset of the byte that holds the nibble. -/
def checkNibbles (s : State) (off : Nat) (info : Word) : Perf Unit :=
  (List.range tilePixels).forM (fun j => do
    let n ← nib s off (BitVec.ofNat 10 j)
    require (n.toNat < s.argPalCnt) .paletteIndexInvalid (off + j / 2) info)

/-! ## The masked blend (R69, R70) -/

/-- Red (R69). -/
def chanR (c : Word) : BitVec 8 := c.extractLsb' 24 8
/-- Green (R69). -/
def chanG (c : Word) : BitVec 8 := c.extractLsb' 16 8
/-- Blue (R69). -/
def chanB (c : Word) : BitVec 8 := c.extractLsb' 8 8
/-- Alpha (R69). -/
def chanA (c : Word) : BitVec 8 := c.extractLsb' 0 8

/-- The colour of four channels (R27). -/
def rgba (r g b a : BitVec 8) : Word := r ++ g ++ b ++ a

/-- `mix(p, q, a)` on naturals (R70). -/
def mixNat (p q a : Nat) : Nat :=
  let t := p * (255 - a) + q * a
  ((t + 128) + ((t + 128) >>> 8)) >>> 8

/-- `mix` on channels (R70). -/
def mix (p q a : BitVec 8) : BitVec 8 := BitVec.ofNat 8 (mixNat p.toNat q.toNat a.toNat)

/-- `blend(d, s)`: the source colour `c` over the destination colour `d`, masked by its own alpha (R70). -/
def blend (d c : Word) : Word :=
  rgba (mix (chanR d) (chanR c) (chanA c)) (mix (chanG d) (chanG c) (chanA c))
    (mix (chanB d) (chanB c) (chanA c)) (mix (chanA d) (chanA c) (chanA c))

/-! ## Placement (R71, R72) -/

/-- `place(mode, W, X, Y, img, w, h)` over the canvas `dst` (R71), said for each canvas address: the addresses of the
`w` by `h` rectangle at `(X, Y)` take the image's pixel, blended over what stood there when masked, and the others
keep theirs (log 10). -/
def place (mode : Mode) (W X Y : Nat) (img : Image) (w h : Nat) (dst : Image) : Image := fun a =>
  if X ≤ a % W ∧ a % W < X + w ∧ Y ≤ a / W ∧ a / W < Y + h then do
    let src ← img ((a / W - Y) * w + (a % W - X))
    match mode with
    | .copy => pure src
    | .mask => do
      let d ← dst a
      pure (blend d src)
  else dst a

/-- A canvas of one colour (R72). -/
def filled (c : Word) : Image := fun _ => .ok c

/-- Place cell `k` for each `k` in `[0, n)`, in that order, over `dst`. -/
def placeAll (n : Nat) (put : Nat → Image → Image) (dst : Image) : Image :=
  (List.range n).foldl (fun acc k => put k acc) dst

/-! ## Meta-tiles (R74 to R77) -/

/-- `subidx(D, s)` (R74): the low byte of the big-endian descriptor field. -/
def subIndex (s : State) (d k : Nat) : Perf Byte := do
  let f ← romField s (fieldOff d k)
  pure (f.extractLsb' 0 8)

/-- `suboff(D, s)` (R75). -/
def subOff (s : State) (d k : Nat) : Perf Nat := do
  let index ← subIndex s d k
  pure (subTileOff index)

/-- The decoded sub-tile `k` of the meta-tile at `d`. -/
def subTile (s : State) (d k : Nat) : Image := fun i => do
  let t ← subOff s d k
  decodeTile s t i

/-- `metaImage(D, msub)` over the backdrop `bg` (R77). -/
def metaImage (s : State) (bg : Word) (d : Nat) (msub : Bool) : Image :=
  placeAll metaSubs
    (fun k => place (Mode.ofFlag msub) metaW (subX k) (subY k) (subTile s d k) tileSide tileSide) (filled bg)

/-- The range checks of meta-tile number `m`, whose descriptor is at `d`: field 0, sub-tile 0, field 1, … (R84,
R85, R96). -/
def checkMeta (s : State) (m d : Nat) : Perf Unit :=
  (List.range metaSubs).forM (fun k => do
    checkRange s (fieldOff d k) fieldBytes (fieldInfo m k)
    let t ← subOff s d k
    checkRange s t tileBytes (tileInfo m k))

/-- The nibble checks of meta-tile number `m`, whose descriptor is at `d` (R84, R85, R91; log 17). -/
def checkMetaNibbles (s : State) (m d : Nat) : Perf Unit :=
  (List.range metaSubs).forM (fun k => do
    let t ← subOff s d k
    checkNibbles s t (tileInfo m k))

/-! ## Writing the result -/

/-- Write the `W` by `H` image to the canvas and set OUTW, OUTH and OUTV (R31, R81, R83 to R85). Every colour is read
before any is written (R78). -/
def storeImage (W H : Nat) (img : Image) (s : State) : Perf State := do
  let ws ← (List.range (W * H)).mapM img
  if W * H ≤ s.params.canvasCap then
    pure { s with
      canvas := Words.storeRun ws s.canvas
      outW := BitVec.ofNat 32 W
      outH := BitVec.ofNat 32 H
      status := s.status.imageValid }
  else .error (.fault .canvasAddressAbsent)

end Sys2Proof.Machine
end

