-- ==== Sys2Proof/Machine/Grid.lean ====
section
/-! DEFINITION. COMPOSE (R83). -/

namespace Sys2Proof.Machine

open Sys2Proof

/-- The grid image of a COMPOSE over the backdrop `bg` (R83): every tile placed masked. -/
def composeImage (s : State) (bg : Word) : Image :=
  placeAll s.argCnt
    (fun k => place .mask (gridW tileSide s.argCnt) (cellX tileSide s.argCnt k) (cellY tileSide s.argCnt k)
      (decodeTile s (tileOff s.argOff k)) tileSide tileSide)
    (filled bg)

/-- COMPOSE's checks and writes (R83). The pre-fill reads PAL[0] always (R115). -/
def composeWrites (s : State) : Perf State := do
  checkPreconditions s
  checkGrid s tileSide tileSide
  (List.range s.argCnt).forM (fun k => checkRange s (tileOff s.argOff k) tileBytes (tileInfo k 0))
  (List.range s.argCnt).forM (fun k => checkNibbles s (tileOff s.argOff k) (tileInfo k 0))
  let bg ← palColour s 0
  storeImage (gridW tileSide s.argCnt) (gridH tileSide s.argCnt) (composeImage s bg) s

/-- COMPOSE (R83). -/
def execCompose (s : State) : Host.Outcome State Fault Refusal := completeCommand s (composeWrites s)

end Sys2Proof.Machine
end

