-- ==== Sys2Proof/Machine/Meta.lean ====
section
/-! DEFINITION. META (R84) and METAGRID (R85). -/

namespace Sys2Proof.Machine

open Sys2Proof

/-- META's checks and writes (R84). The pre-fill reads PAL[0] whatever MSUB is (R77, R115). -/
def metaTileWrites (msub : Bool) (s : State) : Perf State := do
  checkPreconditions s
  checkMeta s 0 s.argOff
  checkMetaNibbles s 0 s.argOff
  let bg ← palColour s 0
  storeImage metaW metaH (metaImage s bg s.argOff msub) s

/-- META (R84). -/
def execMetaTile (msub : Bool) (s : State) : Host.Outcome State Fault Refusal :=
  completeCommand s (metaTileWrites msub s)

/-- The grid image of a METAGRID over the backdrop `bg` (R85). -/
def metaGridImage (s : State) (bg : Word) (msub mgrid : Bool) : Image :=
  placeAll s.argCnt
    (fun m => place (Mode.ofFlag mgrid) (gridW metaW s.argCnt) (cellX metaW s.argCnt m) (cellY metaH s.argCnt m)
      (metaImage s bg (descOff s.argOff m) msub) metaW metaH)
    (filled bg)

/-- METAGRID's checks and writes (R85). -/
def metaGridWrites (msub mgrid : Bool) (s : State) : Perf State := do
  checkPreconditions s
  checkGrid s metaW metaH
  (List.range s.argCnt).forM (fun m => checkMeta s m (descOff s.argOff m))
  (List.range s.argCnt).forM (fun m => checkMetaNibbles s m (descOff s.argOff m))
  let bg ← palColour s 0
  storeImage (gridW metaW s.argCnt) (gridH metaH s.argCnt) (metaGridImage s bg msub mgrid) s

/-- METAGRID (R85). -/
def execMetaGrid (msub mgrid : Bool) (s : State) : Host.Outcome State Fault Refusal :=
  completeCommand s (metaGridWrites msub mgrid s)

end Sys2Proof.Machine
end

