-- ==== Sys2Proof/Machine/Table.lean ====
section
/-! DEFINITION. BUILD (R80). -/

namespace Sys2Proof.Machine

open Sys2Proof

/-- BUILD's writes (R80): every table entry and TBLV. It checks nothing. -/
def buildWrites (s : State) : Perf State :=
  .ok { s with tbl := builtTable, status := s.status.tableBuilt }

/-- BUILD (R80). -/
def execBuild (s : State) : Host.Outcome State Fault Refusal := completeCommand s (buildWrites s)

end Sys2Proof.Machine
end

