-- ==== Sys2Proof/Machine/Tile.lean ====
section
/-! DEFINITION. RENDER (R81). -/

namespace Sys2Proof.Machine

open Sys2Proof

/-- RENDER's checks and writes (R81): no pre-fill, no blend, 1024 words. -/
def renderWrites (s : State) : Perf State := do
  checkPreconditions s
  checkRange s s.argOff tileBytes (tileInfo 0 0)
  checkNibbles s s.argOff (tileInfo 0 0)
  storeImage tileSide tileSide (decodeTile s s.argOff) s

/-- RENDER (R81). -/
def execRender (s : State) : Host.Outcome State Fault Refusal := completeCommand s (renderWrites s)

end Sys2Proof.Machine
end

