-- ==== Sys2Proof/Machine/Dispatch.lean ====
section
/-! DEFINITION. One arm for each command: the perform step of a valid command word (R57). -/

namespace Sys2Proof.Machine

open Sys2Proof

def exec (i : Instr) (s : State) : Host.Outcome State Fault Refusal :=
  match i with
  | .build => Sys2Proof.Machine.execBuild s
  | .render => Sys2Proof.Machine.execRender s
  | .compose => Sys2Proof.Machine.execCompose s
  | .metaTile msub => Sys2Proof.Machine.execMetaTile msub s
  | .metaGrid msub mgrid => Sys2Proof.Machine.execMetaGrid msub mgrid s

end Sys2Proof.Machine
end

