-- ==== Sys2Proof/Machine/Engine.lean ====
section
/-! DEFINITION. The engine's turn (R57): the perform step of the latched command word, valid or not. -/

namespace Sys2Proof.Machine

open Sys2Proof

/-- The perform step (R57, R96): the latched word is decoded; an invalid one completes with BadCommand (R95). -/
def perform (s : State) : Host.Outcome State Fault Refusal :=
  match decode s.latch.w with
  | .ok i => exec i s
  | .error _ => .next (errorCompletion (badCommandError s) s)

/-- The engine's turn: the perform step is enabled exactly when BUSY = 1 (R57); an IDLE engine waits (R13). `exec` itself does not look at BUSY
(log 18). -/
def engineTurn (s : State) : Host.Outcome State Fault Refusal :=
  if s.status.busy then perform s else .next s

end Sys2Proof.Machine
end

