-- ==== Sys2Proof/Machine/HostPort.lean ====
section
/-! DEFINITION. The host's side of the block: the register map (R15), reads and writes of REG and OUT (R16 to R38),
where a system address leads (R34), and the ROM's owner (R39). -/

namespace Sys2Proof.Machine

open Sys2Proof

/-! ## The register map -/

/-- What a REG word is (R15). -/
inductive Slot where
  | cmd
  | status
  | offset
  | count
  | romLen
  | palCnt
  | errAddr
  | errInfo
  | outW
  | outH
  | tbl (i : BitVec 10)
  | pal (n : Nat)
  | reserved
  deriving DecidableEq, Repr

/-- The REG byte offset of the TBL window (R15). -/
def tblWindow : Nat := 0x1000
/-- The REG byte offset of the PAL window (R15). -/
def palWindow : Nat := 0x2000

/-- The word at a REG byte offset; address bits [1:0] are ignored (R15, R35, R36). -/
def slotAt (off : Nat) : Slot :=
  match off / 4 with
  | 0 => .cmd
  | 1 => .status
  | 2 => .offset
  | 3 => .count
  | 4 => .romLen
  | 5 => .palCnt
  | 6 => .errAddr
  | 7 => .errInfo
  | 8 => .outW
  | 9 => .outH
  | k =>
    if tblWindow / 4 ≤ k ∧ k < tblWindow / 4 + 1024 then .tbl (BitVec.ofNat 10 (k - tblWindow / 4))
    else if palWindow / 4 ≤ k ∧ k < palWindow / 4 + palCap then .pal (k - palWindow / 4)
    else .reserved

/-! ## Reads -/

/-- The word a host read of a REG word returns, or nothing where it is any value: a palette entry the host has not
written since reset (R15 to R24, R26, R30, R36; 93_implementation_defined.md U1). -/
def readSlot (s : State) : Slot → Option Word
  | .cmd => some s.cmd
  | .status => some s.status.word
  | .offset => some s.offset
  | .count => some (s.count.setWidth 32)
  | .romLen => some s.romLen
  | .palCnt => some (s.palCnt.setWidth 32)
  | .errAddr => some s.errAddr
  | .errInfo => some s.errInfo
  | .outW => some s.outW
  | .outH => some s.outH
  | .tbl i => some (if s.status.tblv then (tblEntry s i).setWidth 32 else 0)
  | .pal n => Words.read s.pal n
  | .reserved => some 0

/-- The word a host read of an OUT byte offset returns, or nothing where it is any value: while BUSY = 1, and where
no command has written the word since reset. Beyond CANVAS_CAP it is 0 (R31, R38; 93_implementation_defined.md U3,
U4; log 12). -/
def readOut (s : State) (off : Nat) : Option Word :=
  if s.params.canvasCap ≤ off / 4 then some 0
  else if s.status.busy then none
  else Words.read s.canvas (off / 4)

/-- The host's read returns a word, or the next free value where any value may come back (log 5). -/
def deliver (v : Option Word) (s : State) : State :=
  match v with
  | some w => { s with readData := w }
  | none => { s with readData := Config.freeWord s.freeCount, freeCount := s.freeCount + 1 }

/-! ## Writes -/

/-- What ROMLEN stores of a written value (R20). -/
def romLenStored (s : State) (v : Word) : Word := BitVec.ofNat 32 (min v.toNat s.params.romCap)

/-- What PALCNT stores of a written value (R21). -/
def palCntStored (v : Word) : BitVec 9 := BitVec.ofNat 9 (min v.toNat palCap)

/-- A host write to a REG word (R16 to R24, R26, R30, R36, R37, R56). -/
def writeSlot (v : Word) (s : State) : Slot → State
  | .cmd => unlessBusy s (acceptCommand v s)
  | .status => acknowledge v s
  | .offset => unlessBusy s { s with offset := v }
  | .count => unlessBusy s { s with count := v.setWidth 16 }
  | .romLen => unlessBusy s { s with romLen := romLenStored s v }
  | .palCnt => unlessBusy s { s with palCnt := palCntStored v }
  | .pal n => unlessBusy s { s with pal := Words.write s.pal n v }
  | .errAddr => s
  | .errInfo => s
  | .outW => s
  | .outH => s
  | .tbl _ => s
  | .reserved => s

/-! ## Where an access goes -/

/-- Where a host access leads. -/
inductive Place where
  | reg (off : Nat)
  | out (off : Nat)
  | beyondReg
  | rom
  | elsewhere
  deriving DecidableEq, Repr

/-- The place a target names. A system address belongs to the space whose range holds it (R34); a REG offset must lie
below 0x4000, an OUT offset may lie beyond the canvas (R38; log 15). -/
def placeOf (p : Params) : Target → Place
  | .reg off => if off < regBytes then .reg off else .beyondReg
  | .out off => .out off
  | .sys a =>
    if p.regBase ≤ a ∧ a < p.regBase + regBytes then .reg (a - p.regBase)
    else if p.outBase ≤ a ∧ a < p.outBase + 4 * p.canvasCap then .out (a - p.outBase)
    else if p.romBase ≤ a ∧ a < p.romBase + p.romCap then .rom
    else .elsewhere

/-- A host access, with what it does at a REG offset and at an OUT offset. None has a meaning while reset is
asserted (R108). -/
def hostAccess (t : Target) (s : State) (onReg onOut : Nat → State) : Host.Outcome State Fault Refusal :=
  if s.inReset then .refused .hostAccessDuringReset
  else match placeOf s.params t with
    | .reg off => .next (onReg off)
    | .out off => .next (onOut off)
    | .beyondReg => .fault .regOffsetAbsent
    | .rom => .refused .hostAccessToRom
    | .elsewhere => .refused .addressNotOfThisBlock

/-- A host read (R35). No read has a side effect on the block (R44). -/
def hostRead (t : Target) (s : State) : Host.Outcome State Fault Refusal :=
  hostAccess t s (fun off => deliver (readSlot s (slotAt off)) s) (fun off => deliver (readOut s off) s)

/-- A host write (R35). Writes to OUT are ignored (R38). -/
def hostWrite (t : Target) (v : Word) (s : State) : Host.Outcome State Fault Refusal :=
  hostAccess t s (fun off => writeSlot v s (slotAt off)) (fun _ => s)

/-! ## The ROM's owner -/

/-- One ROM byte is set. A change while BUSY = 1 has no meaning (R39, R113; log 13). -/
def romSet (a : Nat) (b : Byte) (s : State) : Host.Outcome State Fault Refusal :=
  if s.params.romCap ≤ a then .fault .romAddressAbsent
  else if s.status.busy ∧ Memory.read s.rom a ≠ b then .refused .romChangedWhileBusy
  else .next { s with rom := Memory.write s.rom a b }

end Sys2Proof.Machine
end

