-- ==== Sys2Proof/Machine/HostNotation.lean ====
section
/-! DEFINITION. The host notation of a program line and its pseudo-instructions (R58, R59), as turns of the host. -/

namespace Sys2Proof.Machine

open Sys2Proof

/-- The targets of the notation (R58). -/
inductive Name where
  | cmd
  | status
  | offset
  | count
  | romLen
  | palCnt
  | errAddr
  | errInfo
  | outW
  | outH
  | tbl (i : Nat)
  | pal (n : Nat)
  | out (a : Nat)
  deriving DecidableEq, Repr

/-- The REG or OUT byte offset a target stands for (R15, R58). -/
def Name.target : Name → Target
  | .cmd => .reg 0x000
  | .status => .reg 0x004
  | .offset => .reg 0x008
  | .count => .reg 0x00C
  | .romLen => .reg 0x010
  | .palCnt => .reg 0x014
  | .errAddr => .reg 0x018
  | .errInfo => .reg 0x01C
  | .outW => .reg 0x020
  | .outH => .reg 0x024
  | .tbl i => .reg (tblWindow + 4 * i)
  | .pal n => .reg (palWindow + 4 * n)
  | .out a => .out (4 * a)

/-- A program line (R58) or pseudo-instruction (R59). POLL names how many times this run reads STATUS
(log 19). -/
inductive Line where
  | wr (t : Name) (v : Word)
  | rd (t : Name)
  | cmd (i : Instr)
  | ldpal (n : Nat) (rgba : Word)
  | poll (times : Nat)
  | clrdone
  deriving DecidableEq, Repr

/-- The host accesses a line stands for (R58, R59). -/
def Line.turns : Line → List Turn
  | .wr t v => [.hostWrite t.target v]
  | .rd t => [.hostRead t.target]
  | .cmd i => [.hostWrite Name.cmd.target (encode i)]
  | .ldpal n c => [.hostWrite (Name.pal n).target c]
  | .poll times => List.replicate times (.hostRead Name.status.target)
  | .clrdone => [.hostWrite Name.status.target 0x00000002]

end Sys2Proof.Machine
end

