-- ==== Sys2Proof/Machine/Turns.lean ====
section
/-! DEFINITION. The turns of the agents: what each does, and whose is next (R46, R106, R117). -/

namespace Sys2Proof.Machine

open Sys2Proof

/-- Take one turn. -/
def takeTurn (t : Turn) (s : State) : Host.Outcome State Fault Refusal :=
  match t with
  | .engine => engineTurn s
  | .hostRead a => hostRead a s
  | .hostWrite a v => hostWrite a v s
  | .resetAssert => .next (applyReset s)
  | .resetRelease => .next { s with inReset := false }
  | .romSet a b => romSet a b s

/-- Whose turn is next: the oldest of the schedule, and the engine's when none is left, so that an accepted command
completes (R117, log 2). -/
def State.nextTurn (s : State) : Turn := s.schedule.headD .engine

/-- The state with its next turn taken off the schedule. -/
def State.popTurn (s : State) : State := { s with schedule := s.schedule.tail }

end Sys2Proof.Machine
end

