-- ==== Sys2Proof/Machine/Step.lean ====
section
/-! DEFINITION. The one step of the machine: the next turn of the schedule is taken by its agent (R46, R106, R117). -/

namespace Sys2Proof.Machine

open Sys2Proof

/-- One step. -/
def step (s : State) : Host.Outcome State Fault Refusal := takeTurn s.nextTurn s.popTurn

/-- The state right after the host's write of the command word `w` to CMD, with the engine's turn next: the very next
step performs the command (R56, R57; log 1). -/
def State.withFetchWord (s : State) (nbits w : Nat) : State :=
  { acceptCommand (BitVec.ofNat 32 (w % 2 ^ nbits)) s with schedule := [], inReset := false }

end Sys2Proof.Machine
end

