-- ==== Sys2Proof/Safety.lean ====
section
/-! DEFINITION. What the statements speak of: the invariant of the block, the palette a command may read, and what a
safe outcome is. -/

namespace Sys2Proof.Machine

open Sys2Proof

/-- A legal state. Every clause is one the spec states of every reachable state. -/
structure State.Inv (s : State) : Prop where
  /-- the open parameters meet their constraints (R10, R34) -/
  params_legal : s.params.legal
  /-- the ROM is in canonical form and ends at ROM_CAP (R32) -/
  rom_wf : Memory.wf s.params.romCap s.rom
  /-- PAL has PAL_CAP entries (R26) -/
  pal_wf : Words.wf palCap s.pal
  /-- CANVAS has CANVAS_CAP words (R31) -/
  canvas_wf : Words.wf s.params.canvasCap s.canvas
  /-- ROMLEN is at most ROM_CAP (R20) -/
  romLen_le : s.romLen.toNat ≤ s.params.romCap
  /-- PALCNT is at most PAL_CAP (R21) -/
  palCnt_le : s.palCnt.toNat ≤ palCap
  /-- while BUSY = 1 the latch equals the registers (R25) -/
  latch_eq : s.status.busy = true → s.latch = latchOf s.cmd s
  /-- while BUSY = 1 there is neither a completion nor an error to report (R17, R56) -/
  busy_clear : s.status.busy = true →
    s.status.done = false ∧ s.status.err = false ∧ s.errAddr = 0 ∧ s.errInfo = 0
  /-- ERR tells whether ERRCODE is not NONE (R17, R87) -/
  err_iff : s.status.err = true ↔ s.status.errCode ≠ 0
  /-- an error is reported only with DONE (R17, R99, R101) -/
  err_done : s.status.err = true → s.status.done = true
  /-- codes 9 to 15 and code 4 are never produced (R87, R91) -/
  errCode_produced : s.status.errCode.toNat ≤ 8 ∧ s.status.errCode ≠ ErrCode.number .paletteIndexInvalid
  /-- TBLV = 1 says that TBL holds the deinterleave table (R17, R29) -/
  table_built : s.status.tblv = true → s.tbl = builtTable
  /-- OUTV = 1 says that the canvas holds an image of OUTW by OUTH pixels (R17, R24, R31) -/
  image_held : s.status.outv = true →
    0 < s.outW.toNat * s.outH.toNat ∧ s.outW.toNat * s.outH.toNat ≤ s.params.canvasCap ∧
    ∀ a, a < s.outW.toNat * s.outH.toNat → (Words.read s.canvas a).isSome = true
  /-- no command runs while reset is asserted (R108) -/
  reset_idle : s.inReset = true → s.status.busy = false

/-- The host has written every palette entry a nibble can reach (R110, R115). -/
def State.palReady (s : State) : Prop := ∀ n, n < 16 → (Words.read s.pal n).isSome = true

/-- An outcome that is no fault. -/
def noFault (o : Host.Outcome State Fault Refusal) : Prop := ∀ f, o ≠ .fault f

end Sys2Proof.Machine
end

