-- ==== Sys2Proof/Certificates/Slice0/Obligations.lean ====
section
/-! DEFINITION. The statements about the block, for the provers, and the words they are said in. The words restate the
spec's formulas with its own numbers; they call the model only to read a memory, a table entry or a colour. -/

namespace Sys2Proof.Machine

open Sys2Proof

/-! ## Words the statements are said in -/

/-- A valid command word, by the three conditions of R54. -/
def validWord (w : Word) : Prop :=
  w = 0x00000001 ∨ w = 0x00000002 ∨ w = 0x00000003 ∨ w &&& 0xFFFFFFEF = 0x00000004 ∨ w &&& 0xFFFFFFCF = 0x00000005

/-- What an error completion leaves (R99): `code` in ERRCODE, `addr` in ERRADDR, `info` in ERRINFO, ERR and DONE set,
BUSY cleared, nothing else changed. -/
def failedWith (s : State) (code : BitVec 4) (addr info : Word) : State :=
  { s with
    errAddr := addr
    errInfo := info
    status := { s.status with errCode := code, err := true, busy := false, done := true } }

/-- What the success of an image command leaves (R100): the canvas `c`, OUTW, OUTH, OUTV and DONE set, BUSY cleared,
nothing else changed. -/
def imageDone (s : State) (W H : Nat) (c : Words) : State :=
  { s with
    canvas := c
    outW := BitVec.ofNat 32 W
    outH := BitVec.ofNat 32 H
    status := { s.status with outv := true, busy := false, done := true } }

/-- `len`, `off`, `cnt` and `pc_n` as numbers (R25, R55). -/
def lenOf (s : State) : Nat := s.latch.len.toNat
/-- `off`. -/
def offOf (s : State) : Nat := s.latch.off.toNat
/-- `cnt`. -/
def cntOf (s : State) : Nat := s.latch.cnt.toNat

/-- The three preconditions of a decoding command hold (R88, R89, R92). -/
def decodeReady (s : State) : Prop := lenOf s ≠ 0 ∧ 16 ≤ s.latch.palCnt.toNat ∧ s.status.tblv = true

/-- The latched ROMLEN is one the register can hold (R20). -/
def lenLegal (s : State) : Prop := lenOf s ≤ s.params.romCap

/-- The nibble at stream index `j` of the tile at `off`, straight from the ROM (R64). -/
def romNibble (s : State) (off : Nat) (j : BitVec 10) : BitVec 4 :=
  if j.toNat % 2 = 0 then (Memory.read s.rom (off + j.toNat / 2)).extractLsb' 4 4
  else (Memory.read s.rom (off + j.toNat / 2)).extractLsb' 0 4

/-- The nibble shown at raster index `i` of the tile at `off` (R66). -/
def pixelNibble (s : State) (off i : Nat) : BitVec 4 := romNibble s off (tblEntry s (BitVec.ofNat 10 i))

/-- Every palette entry the tile at `off` shows has been written, and `pal` gives its colour (R115). -/
def coloursHeld (s : State) (pal : BitVec 4 → Word) (off : Nat) : Prop :=
  ∀ i, i < 1024 → Words.read s.pal (pixelNibble s off i).toNat = some (pal (pixelNibble s off i))

/-- Where sub-tile `k` of the meta-tile at `d` starts (R74, R75). -/
def wallTile (s : State) (d k : Nat) : Nat := 0x12EF26 + 512 * (Memory.read s.rom (d + 2 * k + 1)).toNat

/-- Field `k` of the descriptor at `d` and the tile it names are in range (R84). -/
def subInRange (s : State) (d k : Nat) : Prop := d + 2 * k + 2 ≤ lenOf s ∧ wallTile s d k + 512 ≤ lenOf s

/-- `C` of R73. -/
def colsOf (cnt : Nat) : Nat := min cnt 16
/-- `R` of R73. -/
def rowsOf (cnt : Nat) : Nat := (cnt + colsOf cnt - 1) / colsOf cnt

/-- A colour placed over the backdrop `bg`: blended when the flag asks for the mask, copied when not (R53, R71). -/
def placedOver (masked : Bool) (bg c : Word) : Word := if masked then blend bg c else c

/-- The words two canvases agree on. -/
def sameWord (c d : Words) (a : Nat) : Prop := Words.read c a = Words.read d a

/-- An outcome with its ROM replaced. -/
def withRomOf (rom : Memory) : Host.Outcome State Fault Refusal → Host.Outcome State Fault Refusal
  | .next t => .next { t with rom := rom }
  | .fault f => .fault f
  | .refused r => .refused r

end Sys2Proof.Machine

open Sys2Proof Sys2Proof.Machine

/-! ## Decoding and the step -/

/-- A word decodes to a command exactly when it is that command's encoding: no bit of an encoding is dropped, and no
other word is taken for it (R51, R52, R54, R59). -/
def Obligations.DecodeInvertsEncode : Prop :=
  ∀ (w : Word) (i : Instr), decode w = .ok i ↔ encode i = w

/-- R54: a word is accepted as a command exactly when one of the three conditions of the rule holds, which is exactly
when its fields are well formed. -/
def Obligations.DecodeAcceptsExactlyTheValidWords : Prop :=
  ∀ w : Word, ((∃ i, decode w = .ok i) ↔ validWord w) ∧ (validWord w ↔ (CmdFields.ofWord w).wellFormed = true)

/-- The encodings of R59 decode to the commands they are written for, and some words of V-E to none. -/
def Obligations.SampleWordsDecode : Prop :=
  decode 0x00000001 = .ok .build ∧ decode 0x00000002 = .ok .render ∧ decode 0x00000003 = .ok .compose ∧
  decode 0x00000004 = .ok (.metaTile false) ∧ decode 0x00000014 = .ok (.metaTile true) ∧
  decode 0x00000005 = .ok (.metaGrid false false) ∧ decode 0x00000015 = .ok (.metaGrid true false) ∧
  decode 0x00000025 = .ok (.metaGrid false true) ∧ decode 0x00000035 = .ok (.metaGrid true true) ∧
  decode 0x00000000 = .error .reservedOp ∧ decode 0x00000013 = .error .flagNotAllowed ∧
  decode 0x40000003 = .error .reservedBits

/-- R57, R95: when the engine has the turn and BUSY = 1, the step is `exec i` if the latched word decodes to `i`, and
the completion with BadCommand if it is no valid command word, on the state whose schedule has lost that turn (the
schedule is the model's, log 2). -/
def Obligations.StepRunsTheLatchedCommand : Prop :=
  ∀ s : State, s.nextTurn = .engine → s.status.busy = true →
    (∀ i, decode s.latch.w = .ok i → step s = exec i { s with schedule := s.schedule.tail }) ∧
    (¬ validWord s.latch.w →
      step s = .next (failedWith { s with schedule := s.schedule.tail } 8 s.latch.off 0))

/-- R46, R106, R108: the turns are taken one at a time, the oldest of the schedule first and the engine's when none is
left; a host read, a host write and a byte set by the ROM's owner are performed by the step whose turn they are, on the
state whose schedule has lost that turn, and releasing reset changes the reset input and nothing else (the schedule is
the model's, log 2; reset's two turns, log 14). -/
def Obligations.StepTakesTheTurnsOfTheOtherAgents : Prop :=
  ∀ s : State,
    (s.schedule = [] → s.nextTurn = .engine) ∧ (∀ t l, s.schedule = t :: l → s.nextTurn = t) ∧
    (∀ a, s.nextTurn = .hostRead a → step s = hostRead a { s with schedule := s.schedule.tail }) ∧
    (∀ a v, s.nextTurn = .hostWrite a v → step s = hostWrite a v { s with schedule := s.schedule.tail }) ∧
    (∀ a b, s.nextTurn = .romSet a b → step s = romSet a b { s with schedule := s.schedule.tail }) ∧
    (s.nextTurn = .resetRelease → step s = .next { s with schedule := s.schedule.tail, inReset := false })

/-- A command word put where the next step fetches it is what that step runs (the model's fetch, log 1). -/
def Obligations.FetchedWordIsRunNext : Prop :=
  ∀ (s : State) (i : Instr),
    step (s.withFetchWord 32 (encode i).toNat) = exec i (s.withFetchWord 32 (encode i).toNat)

/-- R13: in IDLE the block waits: the engine's turn changes nothing but the schedule (the model's, log
2). -/
def Obligations.IdleEngineWaits : Prop :=
  ∀ s : State, s.nextTurn = .engine → s.status.busy = false → step s = .next { s with schedule := s.schedule.tail }

/-! ## The datapath -/

/-- BUILD completes in every state, whatever ROMLEN and PALCNT are, and changes nothing but TBL and STATUS; entry
`destination(x, y)` of the table is `x + 32*y` for every `x` and `y` below 32 (R60, R80). -/
def Obligations.BuildWritesTheDeinterleaveTable : Prop :=
  ∀ s : State, ∃ t : Vector (BitVec 10) 1024,
    exec .build s = .next { s with tbl := t, status := { s.status with tblv := true, busy := false, done := true } } ∧
    ∀ x y, x < 32 → y < 32 →
      t[512 * (y % 2) + x % 2 + 32 * (x / 2) + 2 * (y / 2)]? = some (BitVec.ofNat 10 (x + 32 * y))

/-- R61: the bit form of the table. -/
def Obligations.TableBitForm : Prop :=
  ∀ i : BitVec 10,
    tableEntry i = (i.extractLsb' 1 4 ++ i.extractLsb' 9 1 ++ i.extractLsb' 5 4 ++ i.extractLsb' 0 1 : BitVec 10)

/-- R62 and R63: the table is a bijection, its inverse is the stated one, the nibble at stream index `j` is shown at
raster index `Tinv[j]`, and the worked values hold. -/
def Obligations.TableIsAPermutationWithTheStatedInverse : Prop :=
  (∀ i : BitVec 10, tableInv (tableEntry i) = i) ∧ (∀ j : BitVec 10, tableEntry (tableInv j) = j) ∧
  (∀ j : BitVec 10, (tableInv j).toNat =
    512 * (j.toNat / 32 % 2) + j.toNat % 32 % 2 + 32 * (j.toNat % 32 / 2) + 2 * (j.toNat / 32 / 2)) ∧
  (∀ (s : State) (off : Nat) (j : BitVec 10), s.tbl = builtTable →
    pixelNibble s off (tableInv j).toNat = romNibble s off j) ∧
  tableEntry 0 = 0 ∧ tableEntry 1 = 1 ∧ tableEntry 512 = 32 ∧
  tableInv 0 = 0 ∧ tableInv 1 = 1 ∧ tableInv 2 = 32 ∧ tableInv 32 = 512 ∧ tableInv 64 = 2

/-- R67: a tile of zero bytes shows entry 0 everywhere whatever the table holds; with the built table the nibble
shown at the place of stream index `j` is the nibble at `j`; and two tiles that show the same colours through the
same 16 distinct palette entries hold the same nibbles, while two equal entries make tiles of two different nibbles
decode alike. -/
def Obligations.DecodingIsLossless : Prop :=
  (∀ (s : State) (off : Nat), off + 512 ≤ s.params.romCap → (∀ b, b < 512 → Memory.read s.rom (off + b) = 0) →
    ∀ i, i < 1024 → decodeTile s off i = palColour s 0) ∧
  (∀ (s : State) (off : Nat) (j : BitVec 10), s.tbl = builtTable →
    pixelNibble s off (tableInv j).toNat = romNibble s off j) ∧
  (∀ (s : State) (off off' : Nat) (pal : BitVec 4 → Word), s.tbl = builtTable →
    off + 512 ≤ s.params.romCap → off' + 512 ≤ s.params.romCap →
    (∀ n : BitVec 4, Words.read s.pal n.toNat = some (pal n)) → (∀ m n : BitVec 4, pal m = pal n → m = n) →
    (∀ i, i < 1024 → decodeTile s off i = decodeTile s off' i) →
    ∀ j : BitVec 10, romNibble s off j = romNibble s off' j) ∧
  (∀ (s s' : State) (off : Nat) (m n : BitVec 4), s'.pal = s.pal → s'.params = s.params →
    off + 512 ≤ s.params.romCap → Words.read s.pal m.toNat = Words.read s.pal n.toNat →
    (∀ j, romNibble s off j = m) → (∀ j, romNibble s' off j = n) →
    ∀ i, decodeTile s off i = decodeTile s' off i)

/-- R70: each channel of the blend is `mix` of the two channels under the source's alpha, which is the nearest integer
to `t / 255`; alpha 255 gives the source, alpha 0 the destination. -/
def Obligations.BlendRoundsToTheNearest : Prop :=
  (∀ d c : Word, ∀ lo ∈ [24, 16, 8, 0],
    ((blend d c).extractLsb' lo 8).toNat =
      let a := (c.extractLsb' 0 8).toNat
      let t := (d.extractLsb' lo 8).toNat * (255 - a) + (c.extractLsb' lo 8).toNat * a
      ((t + 128) + ((t + 128) >>> 8)) >>> 8) ∧
  (∀ p q a : Nat, p ≤ 255 → q ≤ 255 → a ≤ 255 →
    p * (255 - a) + q * a ≤ 65025 ∧
    (p * (255 - a) + q * a + 128) + ((p * (255 - a) + q * a + 128) >>> 8) < 2 ^ 17 ∧
    2 * (p * (255 - a) + q * a) < 255 * (2 * mixNat p q a + 1) ∧
    255 * (2 * mixNat p q a) < 2 * (p * (255 - a) + q * a) + 255 ∧ mixNat p q a ≤ 255) ∧
  (∀ d c : Word, c.extractLsb' 0 8 = 255#8 → blend d c = c) ∧
  (∀ d c : Word, c.extractLsb' 0 8 = 0#8 → blend d c = d)

/-- R71, in the model's form of it (log 10): a placement whose rectangle lies inside the canvas writes the image's pixel, copied or blended over what
stood there, at each address of the rectangle, and no other address. -/
def Obligations.PlacementWritesExactlyItsRectangle : Prop :=
  ∀ (mode : Mode) (W X Y : Nat) (img : Image) (w h : Nat) (dst : Image), X + w ≤ W →
    (∀ tx ty c d, tx < w → ty < h → img (ty * w + tx) = .ok c → dst ((Y + ty) * W + (X + tx)) = .ok d →
      place mode W X Y img w h dst ((Y + ty) * W + (X + tx)) = .ok (placedOver (mode == .mask) d c)) ∧
    (∀ a, (∀ tx ty, tx < w → ty < h → a ≠ (Y + ty) * W + (X + tx)) → place mode W X Y img w h dst a = dst a)

/-- R73: the layout of a grid of `cnt >= 1` cells: its columns, its rows and its size in pixels, every cell inside it,
no two cells sharing a pixel, and cell `k` in column `k mod C` and row `k div C`. -/
def Obligations.GridCellsAreDisjointAndInside : Prop :=
  ∀ cw ch cnt : Nat, 1 ≤ cnt →
    gridCols cnt = colsOf cnt ∧ gridRows cnt = rowsOf cnt ∧ 1 ≤ colsOf cnt ∧
    cnt ≤ colsOf cnt * rowsOf cnt ∧ colsOf cnt * (rowsOf cnt - 1) < cnt ∧
    gridW cw cnt = cw * colsOf cnt ∧ gridH ch cnt = ch * rowsOf cnt ∧
    (∀ k, k < cnt → cellX cw cnt k = cw * (k % colsOf cnt) ∧ cellY ch cnt k = ch * (k / colsOf cnt) ∧
      cellX cw cnt k + cw ≤ gridW cw cnt ∧ cellY ch cnt k + ch ≤ gridH ch cnt) ∧
    (∀ j k x y, j < cnt → k < cnt → cellX cw cnt j ≤ x → x < cellX cw cnt j + cw →
      cellX cw cnt k ≤ x → x < cellX cw cnt k + cw → cellY ch cnt j ≤ y → y < cellY ch cnt j + ch →
      cellY ch cnt k ≤ y → y < cellY ch cnt k + ch → j = k)

/-- R76: the eight sub-tile positions of the table, and every pixel of the 128x64 image lies in exactly one of the
eight rectangles. -/
def Obligations.SubTilesTileTheMetaTile : Prop :=
  (List.range 8).map (fun k => (subX k, subY k)) =
    [(0, 0), (0, 32), (32, 0), (32, 32), (64, 0), (64, 32), (96, 0), (96, 32)] ∧
  (∀ x y, x < 128 → y < 64 → ∃ k, k < 8 ∧ subX k ≤ x ∧ x < subX k + 32 ∧ subY k ≤ y ∧ y < subY k + 32 ∧
    ∀ j, j < 8 → subX j ≤ x → x < subX j + 32 → subY j ≤ y → y < subY j + 32 → j = k) ∧
  (∀ k, k < 8 → subX k + 32 ≤ 128 ∧ subY k + 32 ≤ 64)

/-! ## What the image commands compute -/

/-- RENDER completes whenever its checks pass and the entries its tile shows have been written: word `i` below 1024 is
the colour of the nibble the table picks, words above keep what they held, OUTW and OUTH are 32, and nothing else
changes but STATUS (R66, R81). -/
def Obligations.RenderWritesTheDecodedTile : Prop :=
  ∀ (s : State) (pal : BitVec 4 → Word), decodeReady s → lenLegal s → 1024 ≤ s.params.canvasCap →
    offOf s + 512 ≤ lenOf s → coloursHeld s pal (offOf s) →
    ∃ c : Words, exec .render s = .next (imageDone s 32 32 c) ∧
      (∀ i, i < 1024 → Words.read c i = some (pal (pixelNibble s (offOf s) i))) ∧
      (∀ a, 1024 ≤ a → Words.read c a = Words.read s.canvas a)

/-- COMPOSE completes whenever its checks pass and the backdrop and the entries its tiles show have been written:
every pixel of tile `k` is its colour blended over the backdrop, at the tile's cell; the cells right of the last tile
are backdrop; words beyond the image keep what they held; nothing else changes but OUTW, OUTH and STATUS (R83). -/
def Obligations.ComposePlacesEveryTileMasked : Prop :=
  ∀ (s : State) (pal : BitVec 4 → Word) (bg : Word), decodeReady s → lenLegal s → cntOf s ≠ 0 →
    32 * colsOf (cntOf s) * (32 * rowsOf (cntOf s)) ≤ s.params.canvasCap →
    (∀ k, k < cntOf s → offOf s + 512 * k + 512 ≤ lenOf s) →
    Words.read s.pal 0 = some bg → (∀ k, k < cntOf s → coloursHeld s pal (offOf s + 512 * k)) →
    ∃ c : Words,
      exec .compose s = .next (imageDone s (32 * colsOf (cntOf s)) (32 * rowsOf (cntOf s)) c) ∧
      (∀ k x y, k < cntOf s → x < 32 → y < 32 →
        Words.read c ((32 * (k / colsOf (cntOf s)) + y) * (32 * colsOf (cntOf s)) +
          (32 * (k % colsOf (cntOf s)) + x)) =
          some (blend bg (pal (pixelNibble s (offOf s + 512 * k) (y * 32 + x))))) ∧
      (∀ x y, x < 32 * colsOf (cntOf s) → y < 32 * rowsOf (cntOf s) →
        cntOf s ≤ (y / 32) * colsOf (cntOf s) + x / 32 →
        Words.read c (y * (32 * colsOf (cntOf s)) + x) = some bg) ∧
      (∀ a, 32 * colsOf (cntOf s) * (32 * rowsOf (cntOf s)) ≤ a → Words.read c a = Words.read s.canvas a)

/-- META completes, masked or not, whenever its checks pass and the backdrop and the entries its sub-tiles show have
been written: every pixel of sub-tile `k` stands at its place, copied or blended over the backdrop; words from 8192 on
keep what they held; nothing else changes but OUTW, OUTH and STATUS (R77, R84). -/
def Obligations.MetaAssemblesEightSubTiles : Prop :=
  ∀ (s : State) (pal : BitVec 4 → Word) (bg : Word) (msub : Bool), decodeReady s → lenLegal s →
    8192 ≤ s.params.canvasCap → (∀ k, k < 8 → subInRange s (offOf s) k) →
    Words.read s.pal 0 = some bg → (∀ k, k < 8 → coloursHeld s pal (wallTile s (offOf s) k)) →
    ∃ c : Words, exec (.metaTile msub) s = .next (imageDone s 128 64 c) ∧
      (∀ k x y, k < 8 → x < 32 → y < 32 →
        Words.read c ((32 * (k % 2) + y) * 128 + (32 * (k / 2) + x)) =
          some (placedOver msub bg (pal (pixelNibble s (wallTile s (offOf s) k) (y * 32 + x))))) ∧
      (∀ a, 8192 ≤ a → Words.read c a = Words.read s.canvas a)

/-- METAGRID completes, in each of its four modes, whenever its checks pass and the backdrop and the entries its
sub-tiles show have been written: every pixel of sub-tile `k` of meta-tile `m` stands at its place, placed into the
meta-tile by MSUB and then onto the canvas by MGRID; the cells right of the last meta-tile are backdrop; words beyond
the image keep what they held; nothing else changes but OUTW, OUTH and STATUS (R85). -/
def Obligations.MetaGridPlacesEveryMetaTile : Prop :=
  ∀ (s : State) (pal : BitVec 4 → Word) (bg : Word) (msub mgrid : Bool), decodeReady s → lenLegal s →
    cntOf s ≠ 0 → 128 * colsOf (cntOf s) * (64 * rowsOf (cntOf s)) ≤ s.params.canvasCap →
    (∀ m k, m < cntOf s → k < 8 → subInRange s (offOf s + 16 * m) k) →
    Words.read s.pal 0 = some bg →
    (∀ m k, m < cntOf s → k < 8 → coloursHeld s pal (wallTile s (offOf s + 16 * m) k)) →
    ∃ c : Words,
      exec (.metaGrid msub mgrid) s =
        .next (imageDone s (128 * colsOf (cntOf s)) (64 * rowsOf (cntOf s)) c) ∧
      (∀ m k x y, m < cntOf s → k < 8 → x < 32 → y < 32 →
        Words.read c ((64 * (m / colsOf (cntOf s)) + 32 * (k % 2) + y) * (128 * colsOf (cntOf s)) +
          (128 * (m % colsOf (cntOf s)) + 32 * (k / 2) + x)) =
          some (placedOver mgrid bg
            (placedOver msub bg (pal (pixelNibble s (wallTile s (offOf s + 16 * m) k) (y * 32 + x)))))) ∧
      (∀ x y, x < 128 * colsOf (cntOf s) → y < 64 * rowsOf (cntOf s) →
        cntOf s ≤ (y / 64) * colsOf (cntOf s) + x / 128 →
        Words.read c (y * (128 * colsOf (cntOf s)) + x) = some bg) ∧
      (∀ a, 128 * colsOf (cntOf s) * (64 * rowsOf (cntOf s)) ≤ a → Words.read c a = Words.read s.canvas a)

/-- A RENDER whose tile shows a palette entry the host has not written since reset stops with that fault (R26, R115,
D43). -/
def Obligations.RenderFaultsOnAnUnwrittenColour : Prop :=
  ∀ (s : State) (i : Nat), decodeReady s → lenLegal s → offOf s + 512 ≤ lenOf s → i < 1024 →
    Words.read s.pal (pixelNibble s (offOf s) i).toNat = none →
    exec .render s = .fault .paletteEntryUnwritten

/-- COMPOSE, META and METAGRID read PAL[0] always, META and METAGRID whatever their flags are: with no value in it
they stop with that fault once their checks have passed (R72, R77, R115, D43; log 6). -/
def Obligations.CompositesFaultOnAnUnwrittenBackdrop : Prop :=
  ∀ s : State, decodeReady s → lenLegal s → Words.read s.pal 0 = none →
    (cntOf s ≠ 0 → 32 * colsOf (cntOf s) * (32 * rowsOf (cntOf s)) ≤ s.params.canvasCap →
      (∀ k, k < cntOf s → offOf s + 512 * k + 512 ≤ lenOf s) →
      exec .compose s = .fault .paletteEntryUnwritten) ∧
    ((∀ k, k < 8 → subInRange s (offOf s) k) →
      ∀ msub, exec (.metaTile msub) s = .fault .paletteEntryUnwritten) ∧
    (cntOf s ≠ 0 → 128 * colsOf (cntOf s) * (64 * rowsOf (cntOf s)) ≤ s.params.canvasCap →
      (∀ m k, m < cntOf s → k < 8 → subInRange s (offOf s + 16 * m) k) →
      ∀ msub mgrid, exec (.metaGrid msub mgrid) s = .fault .paletteEntryUnwritten)

/-- COMPOSE, META and METAGRID, once their checks have passed, stop with that fault when a tile or a sub-tile of theirs
shows a palette entry the host has not written since reset, whichever entry it is and whatever the flags are (R26, R115,
D43; 93_implementation_defined.md U1). -/
def Obligations.CompositesFaultOnAnUnwrittenColour : Prop :=
  ∀ (s : State) (i : Nat), decodeReady s → lenLegal s → i < 1024 →
    (∀ k, k < cntOf s → 32 * colsOf (cntOf s) * (32 * rowsOf (cntOf s)) ≤ s.params.canvasCap →
      (∀ j, j < cntOf s → offOf s + 512 * j + 512 ≤ lenOf s) →
      Words.read s.pal (pixelNibble s (offOf s + 512 * k) i).toNat = none →
      exec .compose s = .fault .paletteEntryUnwritten) ∧
    (∀ msub k, k < 8 → (∀ j, j < 8 → subInRange s (offOf s) j) →
      Words.read s.pal (pixelNibble s (wallTile s (offOf s) k) i).toNat = none →
      exec (.metaTile msub) s = .fault .paletteEntryUnwritten) ∧
    (∀ msub mgrid m k, m < cntOf s → k < 8 →
      128 * colsOf (cntOf s) * (64 * rowsOf (cntOf s)) ≤ s.params.canvasCap →
      (∀ l j, l < cntOf s → j < 8 → subInRange s (offOf s + 16 * l) j) →
      Words.read s.pal (pixelNibble s (wallTile s (offOf s + 16 * m) k) i).toNat = none →
      exec (.metaGrid msub mgrid) s = .fault .paletteEntryUnwritten)

/-- R82: with `cnt = 1` both RENDER and COMPOSE complete with a 32x32 image, COMPOSE's word is RENDER's blended over
PAL[0], and the two are pixel-identical exactly when every colour shown is its own blend over PAL[0], which holds when
every alpha shown is 255. -/
def Obligations.ComposeOfOneIsRenderBlended : Prop :=
  ∀ (s : State) (pal : BitVec 4 → Word) (bg : Word), decodeReady s → lenLegal s → 1024 ≤ s.params.canvasCap →
    cntOf s = 1 → offOf s + 512 ≤ lenOf s → Words.read s.pal 0 = some bg → coloursHeld s pal (offOf s) →
    ∃ c d : Words, exec .render s = .next (imageDone s 32 32 c) ∧ exec .compose s = .next (imageDone s 32 32 d) ∧
      (∀ i, i < 1024 → ∃ v, Words.read c i = some v ∧ Words.read d i = some (blend bg v)) ∧
      ((∀ a, sameWord d c a) ↔
        ∀ i, i < 1024 → blend bg (pal (pixelNibble s (offOf s) i)) = pal (pixelNibble s (offOf s) i)) ∧
      ((∀ i, i < 1024 → (pal (pixelNibble s (offOf s) i)).extractLsb' 0 8 = 255#8) → ∀ a, sameWord d c a)

/-- A METAGRID of one meta-tile that copies it is the META of its descriptor, in every outcome (R77, R84, R85). -/
def Obligations.MetaGridOfOneIsMeta : Prop :=
  ∀ (s : State) (msub : Bool), cntOf s = 1 → 8192 ≤ s.params.canvasCap →
    exec (.metaGrid msub false) s = exec (.metaTile msub) s

/-! ## Errors -/

/-- R88: with ROMLEN 0 every decoding command completes with InputMissing, and BUILD does not raise it. -/
def Obligations.InputMissingIsReported : Prop :=
  ∀ (s : State) (i : Instr), lenOf s = 0 →
    (i ≠ .build → exec i s = .next (failedWith s 1 s.latch.off 0)) ∧
    ∃ t, exec .build s = .next t ∧ t.status.err = s.status.err ∧ t.status.errCode = s.status.errCode

/-- R89: with fewer than 16 palette entries every decoding command completes with PaletteTooSmall, once the ROM is
present. -/
def Obligations.PaletteTooSmallIsReported : Prop :=
  ∀ (s : State) (i : Instr), i ≠ .build → lenOf s ≠ 0 → s.latch.palCnt.toNat < 16 →
    exec i s = .next (failedWith s 2 s.latch.off 0)

/-- R92: with TBLV = 0 every decoding command completes with TableNotBuilt, once the ROM and the palette are there. -/
def Obligations.TableNotBuiltIsReported : Prop :=
  ∀ (s : State) (i : Instr), i ≠ .build → lenOf s ≠ 0 → 16 ≤ s.latch.palCnt.toNat → s.status.tblv = false →
    exec i s = .next (failedWith s 5 s.latch.off 0)

/-- R93: with COUNT 0 the two grid commands complete with CountZero, once the preconditions hold. -/
def Obligations.CountZeroIsReported : Prop :=
  ∀ (s : State) (msub mgrid : Bool), decodeReady s → cntOf s = 0 →
    exec .compose s = .next (failedWith s 6 s.latch.off 0) ∧
    exec (.metaGrid msub mgrid) s = .next (failedWith s 6 s.latch.off 0)

/-- R94: a grid larger than the canvas makes the two grid commands complete with CanvasOverflow, once the checks
before it pass; RENDER and META never report it. -/
def Obligations.CanvasOverflowIsReported : Prop :=
  ∀ (s : State) (msub mgrid : Bool),
    (decodeReady s → cntOf s ≠ 0 → s.params.canvasCap < 32 * colsOf (cntOf s) * (32 * rowsOf (cntOf s)) →
      exec .compose s = .next (failedWith s 7 s.latch.off 0)) ∧
    (decodeReady s → cntOf s ≠ 0 → s.params.canvasCap < 128 * colsOf (cntOf s) * (64 * rowsOf (cntOf s)) →
      exec (.metaGrid msub mgrid) s = .next (failedWith s 7 s.latch.off 0)) ∧
    (s.status.errCode ≠ 7 → ∀ t, exec .render s = .next t ∨ exec (.metaTile msub) s = .next t →
      t.status.errCode ≠ 7)

/-- R95: an invalid command word completes with BadCommand whatever the other checks would say, changes nothing but
the completion status, and its acceptance does not clear OUTV. -/
def Obligations.BadCommandIsReported : Prop :=
  ∀ s : State,
    (¬ validWord s.latch.w → perform s = .next (failedWith s 8 s.latch.off 0)) ∧
    (∀ v, ¬ validWord v → (acceptCommand v s).status.outv = s.status.outv)

/-- RENDER and COMPOSE report the start of the first tile whose 512 bytes do not end at or below ROMLEN, on the exact
sum, and its number in UNIT (R68, R81, R83, R90). -/
def Obligations.FirstTileOutOfRangeIsReported : Prop :=
  ∀ s : State, decodeReady s →
    (lenOf s < offOf s + 512 → exec .render s = .next (failedWith s 3 s.latch.off 0)) ∧
    (∀ k, k < cntOf s → 32 * colsOf (cntOf s) * (32 * rowsOf (cntOf s)) ≤ s.params.canvasCap →
      (∀ j, j < k → offOf s + 512 * j + 512 ≤ lenOf s) → lenOf s < offOf s + 512 * k + 512 →
      exec .compose s = .next (failedWith s 3 (BitVec.ofNat 32 (offOf s + 512 * k)) (BitVec.ofNat 32 k)))

/-- META reports the first range out of range in the order field 0, sub-tile 0, field 1, …: a field with PHASE 1, a
sub-tile with PHASE 0, and the sub-tile number in SUB (R84, R90, R96). -/
def Obligations.FirstMetaRangeOutOfRangeIsReported : Prop :=
  ∀ (s : State) (msub : Bool) (k : Nat), decodeReady s → lenLegal s → k < 8 →
    (∀ j, j < k → subInRange s (offOf s) j) →
    (lenOf s < offOf s + 2 * k + 2 →
      exec (.metaTile msub) s =
        .next (failedWith s 3 (BitVec.ofNat 32 (offOf s + 2 * k)) (BitVec.ofNat 32 (k * 2 ^ 16 + 2 ^ 20)))) ∧
    (offOf s + 2 * k + 2 ≤ lenOf s → lenOf s < wallTile s (offOf s) k + 512 →
      exec (.metaTile msub) s =
        .next (failedWith s 3 (BitVec.ofNat 32 (wallTile s (offOf s) k)) (BitVec.ofNat 32 (k * 2 ^ 16))))

/-- METAGRID reports the first range out of range, meta-tile by meta-tile and within one as META does, with the
meta-tile's number in UNIT (R85, R90, R96). -/
def Obligations.FirstMetaGridRangeOutOfRangeIsReported : Prop :=
  ∀ (s : State) (msub mgrid : Bool) (m k : Nat), decodeReady s → lenLegal s → m < cntOf s → k < 8 →
    128 * colsOf (cntOf s) * (64 * rowsOf (cntOf s)) ≤ s.params.canvasCap →
    (∀ l j, l < m → j < 8 → subInRange s (offOf s + 16 * l) j) →
    (∀ j, j < k → subInRange s (offOf s + 16 * m) j) →
    (lenOf s < offOf s + 16 * m + 2 * k + 2 →
      exec (.metaGrid msub mgrid) s =
        .next (failedWith s 3 (BitVec.ofNat 32 (offOf s + 16 * m + 2 * k))
          (BitVec.ofNat 32 (m + k * 2 ^ 16 + 2 ^ 20)))) ∧
    (offOf s + 16 * m + 2 * k + 2 ≤ lenOf s → lenOf s < wallTile s (offOf s + 16 * m) k + 512 →
      exec (.metaGrid msub mgrid) s =
        .next (failedWith s 3 (BitVec.ofNat 32 (wallTile s (offOf s + 16 * m) k)) (BitVec.ofNat 32 (m + k * 2 ^ 16))))

/-- R78, R99, R100: a command that answers a next state either failed, and then nothing but ERRADDR, ERRINFO and
STATUS changed, or succeeded, and then BUILD changed nothing but TBL and STATUS and an image command nothing but the
first `W*H` canvas words, OUTW, OUTH and STATUS. Every register, PAL, the ROM, the latch, the configuration and the
model's own fields are unchanged either way. -/
def Obligations.CommandsChangeOnlyTheirResults : Prop :=
  ∀ (i : Instr) (s t : State), exec i s = .next t →
    (∃ code addr info, t = failedWith s code addr info) ∨
    (i = .build ∧ ∃ tbl, t =
      { s with tbl := tbl, status := { s.status with tblv := true, busy := false, done := true } }) ∨
    (i ≠ .build ∧ ∃ W H c, t = imageDone s W H c ∧ W * H ≤ s.params.canvasCap ∧
      (∀ a, a < W * H → (Words.read c a).isSome = true) ∧
      ∀ a, W * H ≤ a → Words.read c a = Words.read s.canvas a)

/-- R87: which codes each command can complete with when it fails. Code 4 and codes 9 to 15 are never produced. -/
def Obligations.EachCommandReportsOnlyItsCodes : Prop :=
  ∀ (s t : State), s.status.err = false → t.status.err = true →
    (exec .build s ≠ .next t) ∧
    (exec .render s = .next t → t.status.errCode ∈ [1#4, 2#4, 3#4, 5#4]) ∧
    (exec .compose s = .next t → t.status.errCode ∈ [1#4, 2#4, 3#4, 5#4, 6#4, 7#4]) ∧
    (∀ msub, exec (.metaTile msub) s = .next t → t.status.errCode ∈ [1#4, 2#4, 3#4, 5#4]) ∧
    (∀ msub mgrid, exec (.metaGrid msub mgrid) s = .next t →
      t.status.errCode ∈ [1#4, 2#4, 3#4, 5#4, 6#4, 7#4]) ∧
    (∀ e, decode s.latch.w = .error e → perform s = .next t → t.status.errCode = 8)

/-- R98: the address of every error a command raises fits 32 bits: a range error's is the command's OFFSET, or at most
ROMLEN, or the start of a sub-tile, which is at most 0x14ED26; any other error's is OFFSET. -/
def Obligations.ErrorAddressesFit : Prop :=
  ∀ (s : State) (e : CmdError) (msub mgrid : Bool),
    renderWrites s = .error (.raised e) ∨ composeWrites s = .error (.raised e) ∨
      metaTileWrites msub s = .error (.raised e) ∨ metaGridWrites msub mgrid s = .error (.raised e) ∨
      e = badCommandError s →
    e.addr < 2 ^ 32 ∧ (e.code ≠ .outOfRange → e.addr = offOf s) ∧
    (e.code = .outOfRange → e.addr = offOf s ∨ e.addr ≤ lenOf s ∨ e.addr ≤ 0x14ED26)

/-! ## The host's side -/

/-- R56, at each of the four byte offsets of the word (R35): a write of `v` to CMD is dropped with WLOST set while BUSY = 1; while BUSY = 0 it is stored and latched with
the argument registers, BUSY is set, DONE, ERR, ERRCODE, ERRADDR and ERRINFO are cleared, OUTV is cleared exactly by a
valid word whose OP is 2 to 5, and nothing else changes. -/
def Obligations.CmdWriteIsAcceptance : Prop :=
  ∀ (s : State) (v : Word) (b : Nat), s.inReset = false → b < 4 →
    (s.status.busy = true → hostWrite (.reg (0x000 + b)) v s = .next { s with status := { s.status with wlost := true } }) ∧
    (s.status.busy = false → ∃ outv,
      hostWrite (.reg (0x000 + b)) v s = .next
        { s with
          cmd := v
          latch := ⟨v, s.offset, s.count, s.romLen, s.palCnt⟩
          status := { s.status with busy := true, done := false, err := false, errCode := 0, outv := outv }
          errAddr := 0
          errInfo := 0 } ∧
      (validWord v ∧ 2 ≤ (v.extractLsb' 0 4).toNat ∧ (v.extractLsb' 0 4).toNat ≤ 5 → outv = false) ∧
      (¬ (validWord v ∧ 2 ≤ (v.extractLsb' 0 4).toNat ∧ (v.extractLsb' 0 4).toNat ≤ 5) → outv = s.status.outv))

/-- R37: while BUSY = 1 a write to CMD, OFFSET, COUNT, ROMLEN, PALCNT or a PAL word changes nothing but WLOST, which it
sets; a write to STATUS is performed; and no read of REG is dropped. -/
def Obligations.WritesWhileBusyAreDropped : Prop :=
  ∀ (s : State) (off : Nat) (v : Word), s.inReset = false → s.status.busy = true →
    (off < 0x04 ∨ (0x08 ≤ off ∧ off < 0x18) ∨ (0x2000 ≤ off ∧ off < 0x2400) →
      hostWrite (.reg off) v s = .next { s with status := { s.status with wlost := true } }) ∧
    (0x04 ≤ off → off < 0x08 → hostWrite (.reg off) v s = .next (acknowledge v s)) ∧
    (off < 0x4000 → ∃ t, hostRead (.reg off) s = .next t)

/-- While BUSY = 0 the argument registers and the palette take what the host writes: OFFSET all of it, COUNT its low 16
bits, ROMLEN at most ROM_CAP, PALCNT at most 256, a palette entry its colour, and nothing else changes (R18 to R21,
R26); the two low address bits are ignored (R35). -/
def Obligations.ArgumentWritesAreStored : Prop :=
  ∀ (s : State) (v : Word) (b : Nat), s.inReset = false → s.status.busy = false → b < 4 →
    hostWrite (.reg (0x008 + b)) v s = .next { s with offset := v } ∧
    hostWrite (.reg (0x00C + b)) v s = .next { s with count := v.extractLsb' 0 16 } ∧
    hostWrite (.reg (0x010 + b)) v s = .next { s with romLen := BitVec.ofNat 32 (min v.toNat s.params.romCap) } ∧
    hostWrite (.reg (0x014 + b)) v s = .next { s with palCnt := BitVec.ofNat 9 (min v.toNat 256) } ∧
    (∀ n, n < 256 → ∃ p, hostWrite (.reg (0x2000 + 4 * n + b)) v s = .next { s with pal := p } ∧
      Words.read p n = some v ∧ ∀ m, m ≠ n → Words.read p m = Words.read s.pal m)

/-- R101: writing 1 to bit 1 of STATUS clears DONE, ERR and ERRCODE together, writing 1 to bit 16 clears WLOST, and
nothing else changes; and a CMD write while BUSY = 0 starts a command whether DONE is 1 or 0, itself clearing DONE, ERR,
ERRCODE, ERRADDR and ERRINFO. Either write lands at each of the four byte offsets of its word (R35). -/
def Obligations.StatusWriteAcknowledges : Prop :=
  ∀ (s : State) (v : Word) (b : Nat), s.inReset = false → b < 4 →
    hostWrite (.reg (0x004 + b)) v s = .next
      { s with status :=
        { s.status with
          done := s.status.done && !v.getLsbD 1
          err := s.status.err && !v.getLsbD 1
          errCode := if v.getLsbD 1 then 0 else s.status.errCode
          wlost := s.status.wlost && !v.getLsbD 16 } } ∧
    (s.status.busy = false → ∃ t, hostWrite (.reg (0x000 + b)) v s = .next t ∧ t.status.busy = true ∧
      t.status.done = false ∧ t.status.err = false ∧ t.status.errCode = 0 ∧ t.errAddr = 0 ∧ t.errInfo = 0)

/-- R17: the place of every field in the STATUS word; every other bit reads 0. -/
def Obligations.StatusWordLayout : Prop :=
  ∀ st : Status,
    st.word.getLsbD 0 = st.busy ∧ st.word.getLsbD 1 = st.done ∧ st.word.getLsbD 2 = st.err ∧
    st.word.getLsbD 3 = false ∧ st.word.extractLsb' 4 4 = st.errCode ∧ st.word.getLsbD 8 = st.tblv ∧
    st.word.getLsbD 9 = st.outv ∧ st.word.extractLsb' 10 6 = 0#6 ∧ st.word.getLsbD 16 = st.wlost ∧
    st.word.extractLsb' 17 15 = 0#15

/-- Each register reads at its offset, the two low address bits ignored, and the read changes nothing of the block
(R15 to R24, R35, R44); the word read stands in the model's readData (log 9). -/
def Obligations.HostReadsTheRegisters : Prop :=
  ∀ (s : State) (b : Nat), s.inReset = false → b < 4 →
    hostRead (.reg (0x000 + b)) s = .next { s with readData := s.cmd } ∧
    hostRead (.reg (0x004 + b)) s = .next { s with readData := s.status.word } ∧
    hostRead (.reg (0x008 + b)) s = .next { s with readData := s.offset } ∧
    hostRead (.reg (0x00C + b)) s = .next { s with readData := BitVec.ofNat 32 s.count.toNat } ∧
    hostRead (.reg (0x010 + b)) s = .next { s with readData := s.romLen } ∧
    hostRead (.reg (0x014 + b)) s = .next { s with readData := BitVec.ofNat 32 s.palCnt.toNat } ∧
    hostRead (.reg (0x018 + b)) s = .next { s with readData := s.errAddr } ∧
    hostRead (.reg (0x01C + b)) s = .next { s with readData := s.errInfo } ∧
    hostRead (.reg (0x020 + b)) s = .next { s with readData := s.outW } ∧
    hostRead (.reg (0x024 + b)) s = .next { s with readData := s.outH }

/-- R30: the TBL window reads the entry when TBLV = 1 and 0 when TBLV = 0, whatever BUSY is; writes to it are ignored
and are no dropped writes. -/
def Obligations.TableWindowReadsTheTable : Prop :=
  ∀ (s : State) (i : BitVec 10) (v : Word) (b : Nat), s.inReset = false → b < 4 →
    hostRead (.reg (0x1000 + 4 * i.toNat + b)) s = .next
      { s with readData := if s.status.tblv then BitVec.ofNat 32 (tblEntry s i).toNat else 0 } ∧
    hostWrite (.reg (0x1000 + 4 * i.toNat + b)) v s = .next s

/-- A palette entry reads back as the host wrote it; one it has not written since reset reads as the next free value
(R26; 93_implementation_defined.md U1; log 5). -/
def Obligations.PaletteWindowReadsTheEntry : Prop :=
  ∀ (s : State) (n b : Nat), s.inReset = false → n < 256 → b < 4 →
    (∀ c, Words.read s.pal n = some c →
      hostRead (.reg (0x2000 + 4 * n + b)) s = .next { s with readData := c }) ∧
    (Words.read s.pal n = none → hostRead (.reg (0x2000 + 4 * n + b)) s = .next
      { s with readData := Config.freeWord s.freeCount, freeCount := s.freeCount + 1 })

/-- R36: the words no register or window occupies read 0 and ignore writes, and writes to read-only registers and to
the TBL window are ignored likewise; none of them is a dropped write. -/
def Obligations.ReservedAndReadOnlyWordsIgnoreWrites : Prop :=
  ∀ (s : State) (off : Nat) (v : Word), s.inReset = false →
    ((0x028 ≤ off ∧ off < 0x1000) ∨ (0x2400 ≤ off ∧ off < 0x4000) →
      hostRead (.reg off) s = .next { s with readData := 0 } ∧ hostWrite (.reg off) v s = .next s) ∧
    ((0x018 ≤ off ∧ off < 0x028) ∨ (0x1000 ≤ off ∧ off < 0x2000) → hostWrite (.reg off) v s = .next s)

/-- R38: a host read of OUT word `a` below CANVAS_CAP returns the canvas word while BUSY = 0 (a free value where none
has been written since reset) and a new free value while BUSY = 1; at or beyond CANVAS_CAP it returns 0; host writes
to OUT are ignored. The free values are the model's (log 5), and so is the reading that the 0 beyond the end holds while
BUSY = 1 too (log 12). -/
def Obligations.OutReadsTheCanvas : Prop :=
  ∀ (s : State) (a b : Nat) (v : Word), s.inReset = false → b < 4 →
    (s.status.busy = true → a < s.params.canvasCap → hostRead (.out (4 * a + b)) s = .next
      { s with readData := Config.freeWord s.freeCount, freeCount := s.freeCount + 1 }) ∧
    (∀ c, s.status.busy = false → a < s.params.canvasCap → Words.read s.canvas a = some c →
      hostRead (.out (4 * a + b)) s = .next { s with readData := c }) ∧
    (s.status.busy = false → a < s.params.canvasCap → Words.read s.canvas a = none →
      hostRead (.out (4 * a + b)) s = .next
        { s with readData := Config.freeWord s.freeCount, freeCount := s.freeCount + 1 }) ∧
    (s.params.canvasCap ≤ a → hostRead (.out (4 * a + b)) s = .next { s with readData := 0 }) ∧
    hostWrite (.out (4 * a + b)) v s = .next s

/-- No address of any space has a side effect on read: whatever a host read names, nothing changes but the two fields
in which the model delivers it (R44; log 5, log 9). -/
def Obligations.HostReadsHaveNoSideEffect : Prop :=
  ∀ (s t : State) (a : Target), hostRead a s = .next t →
    t = { s with readData := t.readData, freeCount := t.freeCount }

/-- While a command runs, whatever the host reads or writes leaves every result of the previous command as it was: of
the block only WLOST can change (R37, R44, R111). The premise on STATUS holds in every busy state that meets
`State.Inv`. -/
def Obligations.HostTurnsWhileBusyChangeOnlyWlost : Prop :=
  ∀ (s t : State), s.status.busy = true → s.status.done = false → s.status.err = false → s.status.errCode = 0 →
    (∃ a, s.nextTurn = .hostRead a ∨ ∃ v, s.nextTurn = .hostWrite a v) → step s = .next t →
    t = { s with
      schedule := s.schedule.tail
      readData := t.readData
      freeCount := t.freeCount
      status := { s.status with wlost := t.status.wlost } }

/-- A system address leads to REG or OUT at its distance from the base, a ROM address is refused, and an address in
no space of the block is refused (R34; the refusals are the model's choice, log 15). -/
def Obligations.SystemAddressesReachTheSpaces : Prop :=
  ∀ (s : State) (v : Word), s.inReset = false → s.params.legal →
    (∀ off, off < 0x4000 →
      hostWrite (.sys (s.params.regBase + off)) v s = hostWrite (.reg off) v s ∧
      hostRead (.sys (s.params.regBase + off)) s = hostRead (.reg off) s) ∧
    (∀ off, off < 4 * s.params.canvasCap →
      hostWrite (.sys (s.params.outBase + off)) v s = hostWrite (.out off) v s ∧
      hostRead (.sys (s.params.outBase + off)) s = hostRead (.out off) s) ∧
    (∀ a, a < s.params.romCap →
      hostWrite (.sys (s.params.romBase + a)) v s = .refused .hostAccessToRom ∧
      hostRead (.sys (s.params.romBase + a)) s = .refused .hostAccessToRom) ∧
    (∀ a, (a < s.params.regBase ∨ s.params.regBase + 0x4000 ≤ a) →
      (a < s.params.outBase ∨ s.params.outBase + 4 * s.params.canvasCap ≤ a) →
      (a < s.params.romBase ∨ s.params.romBase + s.params.romCap ≤ a) →
      hostWrite (.sys a) v s = .refused .addressNotOfThisBlock ∧
      hostRead (.sys a) s = .refused .addressNotOfThisBlock)

/-! ## Reset, the ROM's owner -/

/-- R33: every register is 0 and the engine is IDLE after reset. That no palette entry holds a value is R26's own
reading of its UNSPECIFIED contents; that no canvas word does is the model's reading (log 14). -/
def Obligations.ResetRegistersAreZero : Prop :=
  State.reset.cmd = 0 ∧ State.reset.status.word = 0 ∧ State.reset.status.busy = false ∧ State.reset.offset = 0 ∧
  State.reset.count = 0 ∧ State.reset.romLen = 0 ∧ State.reset.palCnt = 0 ∧ State.reset.errAddr = 0 ∧
  State.reset.errInfo = 0 ∧ State.reset.outW = 0 ∧ State.reset.outH = 0 ∧
  (∀ n, Words.read State.reset.pal n = none) ∧ ∀ a, Words.read State.reset.canvas a = none

/-- R108: asserting reset gives every register its reset value, abandons a command in progress, and leaves no palette
entry and no canvas word with a value; the ROM is not affected. Until reset is released a host access has no
meaning (reset's two turns and what is kept over it are the model's reading, log 14). -/
def Obligations.ResetAbandonsTheCommand : Prop :=
  ∀ s : State, s.nextTurn = .resetAssert → ∃ t, step s = .next t ∧
    t.status = Status.reset ∧ t.cmd = 0 ∧ t.offset = 0 ∧ t.count = 0 ∧ t.romLen = 0 ∧ t.palCnt = 0 ∧
    t.errAddr = 0 ∧ t.errInfo = 0 ∧ t.outW = 0 ∧ t.outH = 0 ∧ t.rom = s.rom ∧ t.params = s.params ∧
    (∀ n, Words.read t.pal n = none) ∧ (∀ a, Words.read t.canvas a = none) ∧ engineTurn t = .next t ∧
    ∀ a v, hostRead a t = .refused .hostAccessDuringReset ∧ hostWrite a v t = .refused .hostAccessDuringReset

/-- The first command after reset: BUILD succeeds with STATUS 0x00000102, every decoding command fails with
InputMissing, STATUS 0x00000016 (R80, R109, V-X). -/
def Obligations.FirstCommandAfterReset : Prop :=
  (∃ t, step (State.reset.withFetchWord 32 0x00000001) = .next t ∧ t.status.word = 0x00000102) ∧
  ∀ i : Instr, i ≠ .build →
    ∃ t, step (State.reset.withFetchWord 32 (encode i).toNat) = .next t ∧ t.status.word = 0x00000016 ∧
      t.errAddr = 0 ∧ t.errInfo = 0

/-- A ROM byte may be set while BUSY = 0, which changes that byte and no other, and setting it to another value while
BUSY = 1 is refused (R39, R113; log 13). -/
def Obligations.RomChangesOnlyWhileIdle : Prop :=
  ∀ (s : State) (a : Nat) (b : Byte), a < s.params.romCap →
    (s.status.busy = true → Memory.read s.rom a ≠ b →
      takeTurn (.romSet a b) s = .refused .romChangedWhileBusy) ∧
    (s.status.busy = false → ∃ m, takeTurn (.romSet a b) s = .next { s with rom := m } ∧
      Memory.read m a = b ∧ ∀ c, c ≠ a → Memory.read m c = Memory.read s.rom c)

/-! ## Invariants, completion, independence -/

/-- The state after reset is a legal state. -/
def Obligations.ResetIsALegalState : Prop := State.reset.Inv

/-- Every step from a legal state, whatever agent takes it, leaves a legal state: the memories stay in canonical form,
ROMLEN and PALCNT stay legal, the latch agrees with the registers while BUSY = 1, STATUS stays consistent, code 4 and
codes 9 to 15 are never produced, the table and the canvas hold what TBLV and OUTV promise. -/
def Obligations.StepKeepsTheStateLegal : Prop :=
  ∀ s t : State, s.Inv → step s = .next t → t.Inv

/-- R86: in a legal state with the 16 palette entries written, every accepted command completes at the engine's turn:
BUSY falls, DONE rises, with no fault and no refusal. -/
def Obligations.EveryAcceptedCommandCompletes : Prop :=
  ∀ s : State, s.Inv → s.palReady → s.status.busy = true →
    ∃ t, engineTurn s = .next t ∧ t.status.busy = false ∧ t.status.done = true

/-- In a legal state the engine's turn ends in no fault but the one for a palette entry never written, and then one of
the 16 entries indeed holds no value (R115, D43). -/
def Obligations.TheOnlyFaultIsAnUnwrittenColour : Prop :=
  ∀ (s : State) (f : Fault), s.Inv → engineTurn s = .fault f → f = .paletteEntryUnwritten ∧ ¬ s.palReady

/-- A command cannot stay busy for ever: a step from a busy state either ends the command or uses up a turn of the
schedule (R117; the schedule is the model's, log 2). -/
def Obligations.BusyStepsUseUpTheSchedule : Prop :=
  ∀ s t : State, s.status.busy = true → step s = .next t →
    t.status.busy = false ∨ t.schedule.length < s.schedule.length

/-- R118: what a command computes is a function of the latch, PAL, TBL, TBLV, the ROM and the configuration. Two states
that agree on those, each as acceptance leaves ERR, come to the same kind of end; if it is an error, to the same code,
address and information; if a success, to the same table, and for an image command to the same OUTW, OUTH and the same
canvas words but for those the command leaves as they were. -/
def Obligations.ResultsDependOnlyOnTheInputs : Prop :=
  ∀ (i : Instr) (s s' : State), s'.latch = s.latch → s'.pal = s.pal → s'.tbl = s.tbl → s'.rom = s.rom →
    s'.params = s.params → s'.status.tblv = s.status.tblv → s.status.err = false → s'.status.err = false →
    (∀ f, exec i s = .fault f ↔ exec i s' = .fault f) ∧
    ∀ t, exec i s = .next t → ∃ t', exec i s' = .next t' ∧ t'.status.err = t.status.err ∧
      (t.status.err = true →
        t'.status.errCode = t.status.errCode ∧ t'.errAddr = t.errAddr ∧ t'.errInfo = t.errInfo) ∧
      (t.status.err = false → t'.tbl = t.tbl ∧
        (i ≠ .build → t'.outW = t.outW ∧ t'.outH = t.outH ∧
          ∀ a, Words.read t'.canvas a = Words.read t.canvas a ∨
            (Words.read t.canvas a = Words.read s.canvas a ∧ Words.read t'.canvas a = Words.read s'.canvas a)))

/-- No rule reads a byte at or above ROMLEN (R32): changing such bytes changes no command's outcome but for the ROM
itself. -/
def Obligations.NoByteBeyondRomLenIsRead : Prop :=
  ∀ (i : Instr) (s : State) (rom : Memory), (∀ a, a < lenOf s → Memory.read rom a = Memory.read s.rom a) →
    exec i { s with rom := rom } = withRomOf rom (exec i s)
end

