-- ==== Sys2Proof/Laws/Memory.lean ====
section
/-! SUPPORT. The laws of the sparse memories: a read after a write, every other address left alone, and the canonical
form kept by every operation. -/

namespace Sys2Proof.Machine

open Sys2Proof

/-! ### Lists of cells -/

section Cells

variable {β : Type}

theorem lookup_insertCell_self (a : Nat) (v : β) (m : List (Nat × β)) : (insertCell a v m).lookup a = some v := by
  induction m with
  | nil => simp [insertCell]
  | cons c m ih =>
    obtain ⟨b, u⟩ := c
    simp only [insertCell]
    split
    · simp
    · split
      · simp
      · have hab : (a == b) = false := by simp; omega
        simp [List.lookup_cons, hab, ih]

theorem lookup_insertCell_of_ne {a c : Nat} (h : c ≠ a) (v : β) (m : List (Nat × β)) :
    (insertCell a v m).lookup c = m.lookup c := by
  have hca : (c == a) = false := by simpa using h
  induction m with
  | nil => simp [insertCell, List.lookup_cons, hca]
  | cons d m ih =>
    obtain ⟨b, u⟩ := d
    simp only [insertCell]
    split
    · simp [List.lookup_cons, hca]
    · split
      · subst b; simp [List.lookup_cons, hca]
      · simp [List.lookup_cons, ih]

theorem lookup_filter (p : Nat → Bool) (m : List (Nat × β)) (c : Nat) :
    (m.filter (fun x => p x.1)).lookup c = if p c then m.lookup c else none := by
  induction m with
  | nil => simp
  | cons d m ih =>
    obtain ⟨b, u⟩ := d
    by_cases hcb : c = b
    · subst c; by_cases hp : p b <;> simp [hp, ih]
    · have hcb' : (c == b) = false := by simpa using hcb
      by_cases hp : p b <;> simp [hp, List.lookup_cons, hcb', ih]

theorem lookup_eraseCell_self (a : Nat) (m : List (Nat × β)) : (eraseCell a m).lookup a = none := by
  simp [eraseCell, lookup_filter (fun x => x != a)]

theorem lookup_eraseCell_of_ne {a c : Nat} (h : c ≠ a) (m : List (Nat × β)) :
    (eraseCell a m).lookup c = m.lookup c := by
  simp [eraseCell, lookup_filter (fun x => x != a), h]

theorem mem_insertCell {a : Nat} {v : β} {m : List (Nat × β)} {p : Nat × β} (h : p ∈ insertCell a v m) :
    p = (a, v) ∨ p ∈ m := by
  induction m with
  | nil => simpa [insertCell] using h
  | cons c m ih =>
    obtain ⟨b, u⟩ := c
    simp only [insertCell] at h
    split at h
    · simpa using h
    · split at h
      · rcases List.mem_cons.mp h with h | h
        · exact .inl h
        · exact .inr (List.mem_cons_of_mem _ h)
      · rcases List.mem_cons.mp h with h | h
        · exact .inr (by simp [h])
        · exact (ih h).imp id (List.mem_cons_of_mem _)

theorem rising_insertCell (a : Nat) (v : β) {m : List (Nat × β)} (h : m.Pairwise (fun p q => p.1 < q.1)) :
    (insertCell a v m).Pairwise (fun p q => p.1 < q.1) := by
  induction m with
  | nil => simp [insertCell]
  | cons c m ih =>
    obtain ⟨b, u⟩ := c
    obtain ⟨hb, hm⟩ := List.pairwise_cons.mp h
    simp only [insertCell]
    split
    · rename_i hab
      refine List.pairwise_cons.mpr ⟨fun p hp => ?_, h⟩
      rcases List.mem_cons.mp hp with rfl | hp
      · exact hab
      · exact Nat.lt_trans hab (hb p hp)
    · split
      · rename_i hab
        exact List.pairwise_cons.mpr ⟨fun p hp => hab ▸ hb p hp, hm⟩
      · refine List.pairwise_cons.mpr ⟨fun p hp => ?_, ih hm⟩
        rcases mem_insertCell hp with rfl | hp
        · show b < a; omega
        · exact hb p hp

end Cells

/-! ### Word memories -/

@[simp] theorem Words.read_nil (a : Nat) : Words.read [] a = none := rfl

@[simp] theorem Words.read_write_self (m : Words) (a : Nat) (v : Word) : Words.read (Words.write m a v) a = some v :=
  lookup_insertCell_self a v m

theorem Words.read_write_of_ne (m : Words) {a c : Nat} (v : Word) (h : c ≠ a) :
    Words.read (Words.write m a v) c = Words.read m c := lookup_insertCell_of_ne h v m

theorem Words.wf_write {cap a : Nat} (m : Words) (v : Word) (h : Words.wf cap m) (ha : a < cap) :
    Words.wf cap (Words.write m a v) :=
  ⟨rising_insertCell a v h.1, fun p hp => by rcases mem_insertCell hp with rfl | hp; exacts [ha, h.2 p hp]⟩

theorem Words.wf_nil (cap : Nat) : Words.wf cap [] := ⟨.nil, by simp⟩

theorem lookup_run (ws : List Word) (n a : Nat) :
    ((ws.zipIdx n).map (fun p => (p.2, p.1))).lookup a = if n ≤ a then ws[a - n]? else none := by
  induction ws generalizing n with
  | nil => simp
  | cons w ws ih =>
    simp only [List.zipIdx_cons, List.map_cons, List.lookup_cons]
    by_cases han : a = n
    · subst a; simp
    · have : (a == n) = false := by simpa using han
      simp only [this, ih]
      by_cases hle : n ≤ a
      · have h1 : n + 1 ≤ a := by omega
        have h2 : a - n = (a - (n + 1)) + 1 := by omega
        simp [hle, h1, h2]
      · have h1 : ¬ n + 1 ≤ a := by omega
        simp [hle, h1]

/-- What a run of words leaves: the run below its length, the old words at and above it (R31). -/
theorem Words.read_storeRun (ws : List Word) (m : Words) (a : Nat) :
    Words.read (Words.storeRun ws m) a = if h : a < ws.length then some ws[a] else Words.read m a := by
  have key := lookup_run ws 0 a
  simp only [Nat.zero_le, if_true, Nat.sub_zero] at key
  simp only [Words.read, Words.storeRun, List.lookup_append, key,
    lookup_filter (fun x => decide (ws.length ≤ x))]
  by_cases h : a < ws.length
  · simp [h]
  · have h' : ws.length ≤ a := by omega
    simp [h, h']

theorem Words.wf_storeRun {cap : Nat} (ws : List Word) (m : Words) (h : Words.wf cap m) (hn : ws.length ≤ cap) :
    Words.wf cap (Words.storeRun ws m) := by
  have hlt : ∀ (ws : List Word) (n : Nat) (p : Nat × Word), p ∈ (ws.zipIdx n).map (fun p => (p.2, p.1)) →
      n ≤ p.1 ∧ p.1 < n + ws.length := by
    intro ws n p hp
    obtain ⟨⟨w, i⟩, hq, rfl⟩ := List.mem_map.mp hp
    have := List.mem_zipIdx hq
    exact ⟨this.1, this.2.1⟩
  have hrise : ∀ (ws : List Word) (n : Nat),
      ((ws.zipIdx n).map (fun p => (p.2, p.1))).Pairwise (fun p q => p.1 < q.1) := by
    intro ws
    induction ws with
    | nil => intro n; simp
    | cons w ws ih =>
      intro n
      simp only [List.zipIdx_cons, List.map_cons]
      exact List.pairwise_cons.mpr ⟨fun p hp => (hlt ws (n + 1) p hp).1, ih (n + 1)⟩
  refine ⟨List.pairwise_append.mpr ⟨hrise ws 0, h.1.filter _, fun p hp q hq => ?_⟩, fun p hp => ?_⟩
  · have h1 := (hlt ws 0 p hp).2
    have h2 : ws.length ≤ q.1 := by simpa using (List.mem_filter.mp hq).2
    show p.1 < q.1; omega
  · rcases List.mem_append.mp hp with hp | hp
    · have := (hlt ws 0 p hp).2; omega
    · exact h.2 p (List.mem_filter.mp hp).1

/-! ### The ROM -/

@[simp] theorem Memory.read_nil (a : Nat) : Memory.read [] a = Memory.unlisted := rfl

@[simp] theorem Memory.read_write_self (m : Memory) (a : Nat) (v : Byte) : Memory.read (Memory.write m a v) a = v := by
  unfold Memory.read Memory.write
  split
  · rename_i h; simp [lookup_eraseCell_self, h]
  · simp [lookup_insertCell_self]

theorem Memory.read_write_of_ne (m : Memory) {a c : Nat} (v : Byte) (h : c ≠ a) :
    Memory.read (Memory.write m a v) c = Memory.read m c := by
  unfold Memory.read Memory.write
  split
  · rw [lookup_eraseCell_of_ne h]
  · rw [lookup_insertCell_of_ne h]

theorem Memory.wf_nil (cap : Nat) : Memory.wf cap [] := ⟨.nil, by simp⟩

theorem Memory.wf_write {cap a : Nat} (m : Memory) (v : Byte) (h : Memory.wf cap m) (ha : a < cap) :
    Memory.wf cap (Memory.write m a v) := by
  unfold Memory.write
  split
  · exact ⟨h.1.filter _, fun p hp => h.2 p (List.mem_filter.mp hp).1⟩
  · rename_i hv
    exact ⟨rising_insertCell a v h.1, fun p hp => by
      rcases mem_insertCell hp with rfl | hp
      exacts [⟨ha, hv⟩, h.2 p hp]⟩

/-- The reset state's memories have their canonical form. -/
theorem reset_memories_wf (cap : Nat) :
    Memory.wf cap State.reset.rom ∧ Words.wf cap State.reset.pal ∧ Words.wf cap State.reset.canvas :=
  ⟨Memory.wf_nil cap, Words.wf_nil cap, Words.wf_nil cap⟩

end Sys2Proof.Machine
end

