-- ==== Sys2Proof/Laws/State.lean ====
section
/-! SUPPORT. The fields of every update of State and of STATUS, one lemma a field, so that no proof unfolds a record
update. -/

namespace Sys2Proof.Machine

open Sys2Proof

/-! ### acceptCommand -/

@[simp] theorem acceptCommand_params (v : Word) (s : State) : (acceptCommand v s).params = s.params := rfl
@[simp] theorem acceptCommand_inReset (v : Word) (s : State) : (acceptCommand v s).inReset = s.inReset := rfl
@[simp] theorem acceptCommand_cmd (v : Word) (s : State) : (acceptCommand v s).cmd = v := rfl
@[simp] theorem acceptCommand_status (v : Word) (s : State) : (acceptCommand v s).status = s.status.accept v := rfl
@[simp] theorem acceptCommand_offset (v : Word) (s : State) : (acceptCommand v s).offset = s.offset := rfl
@[simp] theorem acceptCommand_count (v : Word) (s : State) : (acceptCommand v s).count = s.count := rfl
@[simp] theorem acceptCommand_romLen (v : Word) (s : State) : (acceptCommand v s).romLen = s.romLen := rfl
@[simp] theorem acceptCommand_palCnt (v : Word) (s : State) : (acceptCommand v s).palCnt = s.palCnt := rfl
@[simp] theorem acceptCommand_errAddr (v : Word) (s : State) : (acceptCommand v s).errAddr = 0 := rfl
@[simp] theorem acceptCommand_errInfo (v : Word) (s : State) : (acceptCommand v s).errInfo = 0 := rfl
@[simp] theorem acceptCommand_outW (v : Word) (s : State) : (acceptCommand v s).outW = s.outW := rfl
@[simp] theorem acceptCommand_outH (v : Word) (s : State) : (acceptCommand v s).outH = s.outH := rfl
@[simp] theorem acceptCommand_latch (v : Word) (s : State) : (acceptCommand v s).latch = latchOf v s := rfl
@[simp] theorem acceptCommand_pal (v : Word) (s : State) : (acceptCommand v s).pal = s.pal := rfl
@[simp] theorem acceptCommand_tbl (v : Word) (s : State) : (acceptCommand v s).tbl = s.tbl := rfl
@[simp] theorem acceptCommand_canvas (v : Word) (s : State) : (acceptCommand v s).canvas = s.canvas := rfl
@[simp] theorem acceptCommand_rom (v : Word) (s : State) : (acceptCommand v s).rom = s.rom := rfl
@[simp] theorem acceptCommand_schedule (v : Word) (s : State) : (acceptCommand v s).schedule = s.schedule := rfl
@[simp] theorem acceptCommand_readData (v : Word) (s : State) : (acceptCommand v s).readData = s.readData := rfl
@[simp] theorem acceptCommand_freeCount (v : Word) (s : State) : (acceptCommand v s).freeCount = s.freeCount := rfl

/-! ### errorCompletion -/

@[simp] theorem errorCompletion_params (e : CmdError) (s : State) : (errorCompletion e s).params = s.params := rfl
@[simp] theorem errorCompletion_inReset (e : CmdError) (s : State) : (errorCompletion e s).inReset = s.inReset := rfl
@[simp] theorem errorCompletion_cmd (e : CmdError) (s : State) : (errorCompletion e s).cmd = s.cmd := rfl
@[simp] theorem errorCompletion_status (e : CmdError) (s : State) : (errorCompletion e s).status = s.status.fail e.code := rfl
@[simp] theorem errorCompletion_offset (e : CmdError) (s : State) : (errorCompletion e s).offset = s.offset := rfl
@[simp] theorem errorCompletion_count (e : CmdError) (s : State) : (errorCompletion e s).count = s.count := rfl
@[simp] theorem errorCompletion_romLen (e : CmdError) (s : State) : (errorCompletion e s).romLen = s.romLen := rfl
@[simp] theorem errorCompletion_palCnt (e : CmdError) (s : State) : (errorCompletion e s).palCnt = s.palCnt := rfl
@[simp] theorem errorCompletion_errAddr (e : CmdError) (s : State) : (errorCompletion e s).errAddr = BitVec.ofNat 32 e.addr := rfl
@[simp] theorem errorCompletion_errInfo (e : CmdError) (s : State) : (errorCompletion e s).errInfo = e.info := rfl
@[simp] theorem errorCompletion_outW (e : CmdError) (s : State) : (errorCompletion e s).outW = s.outW := rfl
@[simp] theorem errorCompletion_outH (e : CmdError) (s : State) : (errorCompletion e s).outH = s.outH := rfl
@[simp] theorem errorCompletion_latch (e : CmdError) (s : State) : (errorCompletion e s).latch = s.latch := rfl
@[simp] theorem errorCompletion_pal (e : CmdError) (s : State) : (errorCompletion e s).pal = s.pal := rfl
@[simp] theorem errorCompletion_tbl (e : CmdError) (s : State) : (errorCompletion e s).tbl = s.tbl := rfl
@[simp] theorem errorCompletion_canvas (e : CmdError) (s : State) : (errorCompletion e s).canvas = s.canvas := rfl
@[simp] theorem errorCompletion_rom (e : CmdError) (s : State) : (errorCompletion e s).rom = s.rom := rfl
@[simp] theorem errorCompletion_schedule (e : CmdError) (s : State) : (errorCompletion e s).schedule = s.schedule := rfl
@[simp] theorem errorCompletion_readData (e : CmdError) (s : State) : (errorCompletion e s).readData = s.readData := rfl
@[simp] theorem errorCompletion_freeCount (e : CmdError) (s : State) : (errorCompletion e s).freeCount = s.freeCount := rfl

/-! ### successCompletion -/

@[simp] theorem successCompletion_params (s : State) : (successCompletion s).params = s.params := rfl
@[simp] theorem successCompletion_inReset (s : State) : (successCompletion s).inReset = s.inReset := rfl
@[simp] theorem successCompletion_cmd (s : State) : (successCompletion s).cmd = s.cmd := rfl
@[simp] theorem successCompletion_status (s : State) : (successCompletion s).status = s.status.succeed := rfl
@[simp] theorem successCompletion_offset (s : State) : (successCompletion s).offset = s.offset := rfl
@[simp] theorem successCompletion_count (s : State) : (successCompletion s).count = s.count := rfl
@[simp] theorem successCompletion_romLen (s : State) : (successCompletion s).romLen = s.romLen := rfl
@[simp] theorem successCompletion_palCnt (s : State) : (successCompletion s).palCnt = s.palCnt := rfl
@[simp] theorem successCompletion_errAddr (s : State) : (successCompletion s).errAddr = s.errAddr := rfl
@[simp] theorem successCompletion_errInfo (s : State) : (successCompletion s).errInfo = s.errInfo := rfl
@[simp] theorem successCompletion_outW (s : State) : (successCompletion s).outW = s.outW := rfl
@[simp] theorem successCompletion_outH (s : State) : (successCompletion s).outH = s.outH := rfl
@[simp] theorem successCompletion_latch (s : State) : (successCompletion s).latch = s.latch := rfl
@[simp] theorem successCompletion_pal (s : State) : (successCompletion s).pal = s.pal := rfl
@[simp] theorem successCompletion_tbl (s : State) : (successCompletion s).tbl = s.tbl := rfl
@[simp] theorem successCompletion_canvas (s : State) : (successCompletion s).canvas = s.canvas := rfl
@[simp] theorem successCompletion_rom (s : State) : (successCompletion s).rom = s.rom := rfl
@[simp] theorem successCompletion_schedule (s : State) : (successCompletion s).schedule = s.schedule := rfl
@[simp] theorem successCompletion_readData (s : State) : (successCompletion s).readData = s.readData := rfl
@[simp] theorem successCompletion_freeCount (s : State) : (successCompletion s).freeCount = s.freeCount := rfl

/-! ### acknowledge -/

@[simp] theorem acknowledge_params (v : Word) (s : State) : (acknowledge v s).params = s.params := rfl
@[simp] theorem acknowledge_inReset (v : Word) (s : State) : (acknowledge v s).inReset = s.inReset := rfl
@[simp] theorem acknowledge_cmd (v : Word) (s : State) : (acknowledge v s).cmd = s.cmd := rfl
@[simp] theorem acknowledge_status (v : Word) (s : State) : (acknowledge v s).status = s.status.writeOneClear v := rfl
@[simp] theorem acknowledge_offset (v : Word) (s : State) : (acknowledge v s).offset = s.offset := rfl
@[simp] theorem acknowledge_count (v : Word) (s : State) : (acknowledge v s).count = s.count := rfl
@[simp] theorem acknowledge_romLen (v : Word) (s : State) : (acknowledge v s).romLen = s.romLen := rfl
@[simp] theorem acknowledge_palCnt (v : Word) (s : State) : (acknowledge v s).palCnt = s.palCnt := rfl
@[simp] theorem acknowledge_errAddr (v : Word) (s : State) : (acknowledge v s).errAddr = s.errAddr := rfl
@[simp] theorem acknowledge_errInfo (v : Word) (s : State) : (acknowledge v s).errInfo = s.errInfo := rfl
@[simp] theorem acknowledge_outW (v : Word) (s : State) : (acknowledge v s).outW = s.outW := rfl
@[simp] theorem acknowledge_outH (v : Word) (s : State) : (acknowledge v s).outH = s.outH := rfl
@[simp] theorem acknowledge_latch (v : Word) (s : State) : (acknowledge v s).latch = s.latch := rfl
@[simp] theorem acknowledge_pal (v : Word) (s : State) : (acknowledge v s).pal = s.pal := rfl
@[simp] theorem acknowledge_tbl (v : Word) (s : State) : (acknowledge v s).tbl = s.tbl := rfl
@[simp] theorem acknowledge_canvas (v : Word) (s : State) : (acknowledge v s).canvas = s.canvas := rfl
@[simp] theorem acknowledge_rom (v : Word) (s : State) : (acknowledge v s).rom = s.rom := rfl
@[simp] theorem acknowledge_schedule (v : Word) (s : State) : (acknowledge v s).schedule = s.schedule := rfl
@[simp] theorem acknowledge_readData (v : Word) (s : State) : (acknowledge v s).readData = s.readData := rfl
@[simp] theorem acknowledge_freeCount (v : Word) (s : State) : (acknowledge v s).freeCount = s.freeCount := rfl

/-! ### applyReset -/

@[simp] theorem applyReset_params (s : State) : (applyReset s).params = s.params := rfl
@[simp] theorem applyReset_inReset (s : State) : (applyReset s).inReset = true := rfl
@[simp] theorem applyReset_cmd (s : State) : (applyReset s).cmd = 0 := rfl
@[simp] theorem applyReset_status (s : State) : (applyReset s).status = Status.reset := rfl
@[simp] theorem applyReset_offset (s : State) : (applyReset s).offset = 0 := rfl
@[simp] theorem applyReset_count (s : State) : (applyReset s).count = 0 := rfl
@[simp] theorem applyReset_romLen (s : State) : (applyReset s).romLen = 0 := rfl
@[simp] theorem applyReset_palCnt (s : State) : (applyReset s).palCnt = 0 := rfl
@[simp] theorem applyReset_errAddr (s : State) : (applyReset s).errAddr = 0 := rfl
@[simp] theorem applyReset_errInfo (s : State) : (applyReset s).errInfo = 0 := rfl
@[simp] theorem applyReset_outW (s : State) : (applyReset s).outW = 0 := rfl
@[simp] theorem applyReset_outH (s : State) : (applyReset s).outH = 0 := rfl
@[simp] theorem applyReset_latch (s : State) : (applyReset s).latch = Latch.empty := rfl
@[simp] theorem applyReset_pal (s : State) : (applyReset s).pal = [] := rfl
@[simp] theorem applyReset_tbl (s : State) : (applyReset s).tbl = Vector.replicate 1024 0 := rfl
@[simp] theorem applyReset_canvas (s : State) : (applyReset s).canvas = [] := rfl
@[simp] theorem applyReset_rom (s : State) : (applyReset s).rom = s.rom := rfl
@[simp] theorem applyReset_schedule (s : State) : (applyReset s).schedule = s.schedule := rfl
@[simp] theorem applyReset_readData (s : State) : (applyReset s).readData = s.readData := rfl
@[simp] theorem applyReset_freeCount (s : State) : (applyReset s).freeCount = s.freeCount := rfl

/-! ### popTurn -/

@[simp] theorem popTurn_params (s : State) : (s.popTurn).params = s.params := rfl
@[simp] theorem popTurn_inReset (s : State) : (s.popTurn).inReset = s.inReset := rfl
@[simp] theorem popTurn_cmd (s : State) : (s.popTurn).cmd = s.cmd := rfl
@[simp] theorem popTurn_status (s : State) : (s.popTurn).status = s.status := rfl
@[simp] theorem popTurn_offset (s : State) : (s.popTurn).offset = s.offset := rfl
@[simp] theorem popTurn_count (s : State) : (s.popTurn).count = s.count := rfl
@[simp] theorem popTurn_romLen (s : State) : (s.popTurn).romLen = s.romLen := rfl
@[simp] theorem popTurn_palCnt (s : State) : (s.popTurn).palCnt = s.palCnt := rfl
@[simp] theorem popTurn_errAddr (s : State) : (s.popTurn).errAddr = s.errAddr := rfl
@[simp] theorem popTurn_errInfo (s : State) : (s.popTurn).errInfo = s.errInfo := rfl
@[simp] theorem popTurn_outW (s : State) : (s.popTurn).outW = s.outW := rfl
@[simp] theorem popTurn_outH (s : State) : (s.popTurn).outH = s.outH := rfl
@[simp] theorem popTurn_latch (s : State) : (s.popTurn).latch = s.latch := rfl
@[simp] theorem popTurn_pal (s : State) : (s.popTurn).pal = s.pal := rfl
@[simp] theorem popTurn_tbl (s : State) : (s.popTurn).tbl = s.tbl := rfl
@[simp] theorem popTurn_canvas (s : State) : (s.popTurn).canvas = s.canvas := rfl
@[simp] theorem popTurn_rom (s : State) : (s.popTurn).rom = s.rom := rfl
@[simp] theorem popTurn_schedule (s : State) : (s.popTurn).schedule = s.schedule.tail := rfl
@[simp] theorem popTurn_readData (s : State) : (s.popTurn).readData = s.readData := rfl
@[simp] theorem popTurn_freeCount (s : State) : (s.popTurn).freeCount = s.freeCount := rfl

/-! ### deliver: only the model's own read fields change -/

@[simp] theorem deliver_params (v : Option Word) (s : State) : (deliver v s).params = s.params := by cases v <;> rfl
@[simp] theorem deliver_inReset (v : Option Word) (s : State) : (deliver v s).inReset = s.inReset := by cases v <;> rfl
@[simp] theorem deliver_cmd (v : Option Word) (s : State) : (deliver v s).cmd = s.cmd := by cases v <;> rfl
@[simp] theorem deliver_status (v : Option Word) (s : State) : (deliver v s).status = s.status := by cases v <;> rfl
@[simp] theorem deliver_offset (v : Option Word) (s : State) : (deliver v s).offset = s.offset := by cases v <;> rfl
@[simp] theorem deliver_count (v : Option Word) (s : State) : (deliver v s).count = s.count := by cases v <;> rfl
@[simp] theorem deliver_romLen (v : Option Word) (s : State) : (deliver v s).romLen = s.romLen := by cases v <;> rfl
@[simp] theorem deliver_palCnt (v : Option Word) (s : State) : (deliver v s).palCnt = s.palCnt := by cases v <;> rfl
@[simp] theorem deliver_errAddr (v : Option Word) (s : State) : (deliver v s).errAddr = s.errAddr := by cases v <;> rfl
@[simp] theorem deliver_errInfo (v : Option Word) (s : State) : (deliver v s).errInfo = s.errInfo := by cases v <;> rfl
@[simp] theorem deliver_outW (v : Option Word) (s : State) : (deliver v s).outW = s.outW := by cases v <;> rfl
@[simp] theorem deliver_outH (v : Option Word) (s : State) : (deliver v s).outH = s.outH := by cases v <;> rfl
@[simp] theorem deliver_latch (v : Option Word) (s : State) : (deliver v s).latch = s.latch := by cases v <;> rfl
@[simp] theorem deliver_pal (v : Option Word) (s : State) : (deliver v s).pal = s.pal := by cases v <;> rfl
@[simp] theorem deliver_tbl (v : Option Word) (s : State) : (deliver v s).tbl = s.tbl := by cases v <;> rfl
@[simp] theorem deliver_canvas (v : Option Word) (s : State) : (deliver v s).canvas = s.canvas := by cases v <;> rfl
@[simp] theorem deliver_rom (v : Option Word) (s : State) : (deliver v s).rom = s.rom := by cases v <;> rfl
@[simp] theorem deliver_schedule (v : Option Word) (s : State) : (deliver v s).schedule = s.schedule := by cases v <;> rfl

@[simp] theorem deliver_some (w : Word) (s : State) : (deliver (some w) s).readData = w := rfl
@[simp] theorem deliver_none (s : State) : (deliver none s).readData = Config.freeWord s.freeCount := rfl

/-! ### Status.accept -/

@[simp] theorem Status_accept_busy (v : Word) (st : Status) : (st.accept v).busy = true := rfl
@[simp] theorem Status_accept_done (v : Word) (st : Status) : (st.accept v).done = false := rfl
@[simp] theorem Status_accept_err (v : Word) (st : Status) : (st.accept v).err = false := rfl
@[simp] theorem Status_accept_errCode (v : Word) (st : Status) : (st.accept v).errCode = 0 := rfl
@[simp] theorem Status_accept_tblv (v : Word) (st : Status) : (st.accept v).tblv = st.tblv := rfl
@[simp] theorem Status_accept_wlost (v : Word) (st : Status) : (st.accept v).wlost = st.wlost := rfl

/-! ### Status.succeed -/

@[simp] theorem Status_succeed_busy (st : Status) : (st.succeed).busy = false := rfl
@[simp] theorem Status_succeed_done (st : Status) : (st.succeed).done = true := rfl
@[simp] theorem Status_succeed_err (st : Status) : (st.succeed).err = st.err := rfl
@[simp] theorem Status_succeed_errCode (st : Status) : (st.succeed).errCode = st.errCode := rfl
@[simp] theorem Status_succeed_tblv (st : Status) : (st.succeed).tblv = st.tblv := rfl
@[simp] theorem Status_succeed_outv (st : Status) : (st.succeed).outv = st.outv := rfl
@[simp] theorem Status_succeed_wlost (st : Status) : (st.succeed).wlost = st.wlost := rfl

/-! ### Status.fail -/

@[simp] theorem Status_fail_busy (c : ErrCode) (st : Status) : (st.fail c).busy = false := rfl
@[simp] theorem Status_fail_done (c : ErrCode) (st : Status) : (st.fail c).done = true := rfl
@[simp] theorem Status_fail_err (c : ErrCode) (st : Status) : (st.fail c).err = true := rfl
@[simp] theorem Status_fail_errCode (c : ErrCode) (st : Status) : (st.fail c).errCode = c.number := rfl
@[simp] theorem Status_fail_tblv (c : ErrCode) (st : Status) : (st.fail c).tblv = st.tblv := rfl
@[simp] theorem Status_fail_outv (c : ErrCode) (st : Status) : (st.fail c).outv = st.outv := rfl
@[simp] theorem Status_fail_wlost (c : ErrCode) (st : Status) : (st.fail c).wlost = st.wlost := rfl

/-! ### Status.lost -/

@[simp] theorem Status_lost_busy (st : Status) : (st.lost).busy = st.busy := rfl
@[simp] theorem Status_lost_done (st : Status) : (st.lost).done = st.done := rfl
@[simp] theorem Status_lost_err (st : Status) : (st.lost).err = st.err := rfl
@[simp] theorem Status_lost_errCode (st : Status) : (st.lost).errCode = st.errCode := rfl
@[simp] theorem Status_lost_tblv (st : Status) : (st.lost).tblv = st.tblv := rfl
@[simp] theorem Status_lost_outv (st : Status) : (st.lost).outv = st.outv := rfl
@[simp] theorem Status_lost_wlost (st : Status) : (st.lost).wlost = true := rfl

/-! ### Status.tableBuilt -/

@[simp] theorem Status_tableBuilt_busy (st : Status) : (st.tableBuilt).busy = st.busy := rfl
@[simp] theorem Status_tableBuilt_done (st : Status) : (st.tableBuilt).done = st.done := rfl
@[simp] theorem Status_tableBuilt_err (st : Status) : (st.tableBuilt).err = st.err := rfl
@[simp] theorem Status_tableBuilt_errCode (st : Status) : (st.tableBuilt).errCode = st.errCode := rfl
@[simp] theorem Status_tableBuilt_tblv (st : Status) : (st.tableBuilt).tblv = true := rfl
@[simp] theorem Status_tableBuilt_outv (st : Status) : (st.tableBuilt).outv = st.outv := rfl
@[simp] theorem Status_tableBuilt_wlost (st : Status) : (st.tableBuilt).wlost = st.wlost := rfl

/-! ### Status.imageValid -/

@[simp] theorem Status_imageValid_busy (st : Status) : (st.imageValid).busy = st.busy := rfl
@[simp] theorem Status_imageValid_done (st : Status) : (st.imageValid).done = st.done := rfl
@[simp] theorem Status_imageValid_err (st : Status) : (st.imageValid).err = st.err := rfl
@[simp] theorem Status_imageValid_errCode (st : Status) : (st.imageValid).errCode = st.errCode := rfl
@[simp] theorem Status_imageValid_tblv (st : Status) : (st.imageValid).tblv = st.tblv := rfl
@[simp] theorem Status_imageValid_outv (st : Status) : (st.imageValid).outv = true := rfl
@[simp] theorem Status_imageValid_wlost (st : Status) : (st.imageValid).wlost = st.wlost := rfl

/-! ### Status.writeOneClear -/

@[simp] theorem Status_writeOneClear_busy (v : Word) (st : Status) : (st.writeOneClear v).busy = st.busy := rfl
@[simp] theorem Status_writeOneClear_done (v : Word) (st : Status) : (st.writeOneClear v).done = (st.done && !v.getLsbD 1) := rfl
@[simp] theorem Status_writeOneClear_err (v : Word) (st : Status) : (st.writeOneClear v).err = (st.err && !v.getLsbD 1) := rfl
@[simp] theorem Status_writeOneClear_errCode (v : Word) (st : Status) : (st.writeOneClear v).errCode = (if v.getLsbD 1 then 0 else st.errCode) := rfl
@[simp] theorem Status_writeOneClear_tblv (v : Word) (st : Status) : (st.writeOneClear v).tblv = st.tblv := rfl
@[simp] theorem Status_writeOneClear_outv (v : Word) (st : Status) : (st.writeOneClear v).outv = st.outv := rfl
@[simp] theorem Status_writeOneClear_wlost (v : Word) (st : Status) : (st.writeOneClear v).wlost = (st.wlost && !v.getLsbD 16) := rfl

/-- OUTV after acceptance: cleared exactly by a valid image command (R56). -/
theorem Status_accept_outv (v : Word) (st : Status) :
    (st.accept v).outv = (st.outv && !(match decode v with | .ok i => i.isImage | .error _ => false)) := rfl

@[simp] theorem unlessBusy_of_busy (s t : State) (h : s.status.busy = true) :
    unlessBusy s t = { s with status := s.status.lost } := by simp [unlessBusy, h]

@[simp] theorem unlessBusy_of_idle (s t : State) (h : s.status.busy = false) : unlessBusy s t = t := by
  simp [unlessBusy, h]

end Sys2Proof.Machine
end

