-- ==== Sys2Proof/Laws/Perform.lean ====
section
/-! SUPPORT. The perform step's monad: when a sequence, a loop and a collection succeed, and what each shared check
and read can answer. -/

namespace Sys2Proof.Machine

open Sys2Proof

/-! ### Sequences, loops, collections -/

section Monad

variable {α β : Type}

@[simp] theorem perf_pure (a : α) : (pure a : Perf α) = .ok a := rfl

@[simp] theorem perf_ok_bind (a : α) (f : α → Perf β) : ((Except.ok a : Perf α) >>= f) = f a := rfl

@[simp] theorem perf_error_bind (e : Stop) (f : α → Perf β) : ((Except.error e : Perf α) >>= f) = .error e := rfl

theorem perf_bind_ok {x : Perf α} {f : α → Perf β} {b : β} :
    (x >>= f) = .ok b ↔ ∃ a, x = .ok a ∧ f a = .ok b := by
  cases x <;> simp

theorem perf_bind_error {x : Perf α} {f : α → Perf β} {e : Stop} :
    (x >>= f) = .error e ↔ x = .error e ∨ ∃ a, x = .ok a ∧ f a = .error e := by
  cases x <;> simp

/-- A loop succeeds exactly when every turn does. -/
theorem forM_ok {xs : List α} {f : α → Perf Unit} : xs.forM f = .ok () ↔ ∀ x ∈ xs, f x = .ok () := by
  induction xs with
  | nil => simp
  | cons x xs ih =>
    rw [List.forM_eq_forM, List.forM_cons, perf_bind_ok, ← List.forM_eq_forM, List.forall_mem_cons, ← ih]
    exact ⟨fun ⟨_, h⟩ => h, fun h => ⟨(), h⟩⟩

/-- A loop is ended by its first turn that fails. -/
theorem forM_error {xs : List α} {f : α → Perf Unit} {e : Stop} :
    xs.forM f = .error e ↔ ∃ pre x post, xs = pre ++ x :: post ∧ (∀ y ∈ pre, f y = .ok ()) ∧ f x = .error e := by
  induction xs with
  | nil => simp
  | cons x xs ih =>
    rw [List.forM_eq_forM, List.forM_cons, perf_bind_error, ← List.forM_eq_forM]
    constructor
    · rintro (h | ⟨⟨⟩, hx, h⟩)
      · exact ⟨[], x, xs, rfl, by simp, h⟩
      · obtain ⟨pre, y, post, rfl, hpre, hy⟩ := ih.mp h
        exact ⟨x :: pre, y, post, rfl, by simpa [hx] using hpre, hy⟩
    · rintro ⟨pre, y, post, heq, hpre, hy⟩
      cases pre with
      | nil => simp only [List.nil_append, List.cons.injEq] at heq; exact .inl (heq.1 ▸ hy)
      | cons z pre =>
        simp only [List.cons_append, List.cons.injEq] at heq
        obtain ⟨rfl, rfl⟩ := heq
        exact .inr ⟨(), hpre x (by simp), ih.mpr ⟨pre, y, post, rfl, fun w hw => hpre w (by simp [hw]), hy⟩⟩

/-- A loop over `[0, n)` is ended by its least turn that fails. -/
theorem forM_range_error {n : Nat} {f : Nat → Perf Unit} {e : Stop} :
    (List.range n).forM f = .error e ↔ ∃ k, k < n ∧ (∀ j, j < k → f j = .ok ()) ∧ f k = .error e := by
  rw [forM_error]
  constructor
  · rintro ⟨pre, x, post, heq, hpre, hx⟩
    have hlen : pre.length < n := by
      have := congrArg List.length heq; simp at this; omega
    have hx' : x = pre.length := by
      have := congrArg (fun l => l[pre.length]?) heq; simp [hlen] at this; omega
    subst hx'
    refine ⟨_, hlen, fun j hj => hpre j ?_, hx⟩
    have := congrArg (fun l => l[j]?) heq
    simp [List.getElem?_append, hj, Nat.lt_trans hj hlen] at this
    exact this ▸ List.getElem_mem hj
  · rintro ⟨k, hk, hpre, hx⟩
    refine ⟨List.range k, k, (List.range (n - k - 1)).map (k + 1 + ·), ?_, by simpa using hpre, hx⟩
    apply List.ext_getElem
    · simp; omega
    · intro i h1 h2
      simp only [List.getElem_range, List.getElem_append, List.length_range, List.getElem_cons]
      split
      · simp
      · split
        · omega
        · simp; omega

/-- Colours are collected exactly when every one of them can be read. -/
theorem mapM_range_ok {n : Nat} {f : Nat → Perf α} {ws : List α} :
    (List.range n).mapM f = .ok ws ↔ ws.length = n ∧ ∀ i (h : i < ws.length), f i = .ok ws[i] := by
  have gen : ∀ (xs : List Nat) (ws : List α), xs.mapM f = .ok ws ↔
      ws.length = xs.length ∧ ∀ i (h : i < ws.length) (h' : i < xs.length), f xs[i] = .ok ws[i] := by
    intro xs
    induction xs with
    | nil => intro ws; cases ws <;> simp [eq_comm]
    | cons x xs ih =>
      intro ws
      simp only [List.mapM_cons, perf_bind_ok, perf_pure, Except.ok.injEq]
      constructor
      · rintro ⟨w, hw, vs, hvs, rfl⟩
        obtain ⟨hl, hi⟩ := (ih vs).mp hvs
        refine ⟨by simp [hl], fun i h h' => ?_⟩
        cases i with
        | zero => simpa using hw
        | succ i => simpa using hi i (by simpa using h) (by simpa using h')
      · rintro ⟨hl, hi⟩
        cases ws with
        | nil => simp at hl
        | cons w vs =>
          refine ⟨w, hi 0 (by simp) (by simp), vs, (ih vs).mpr ⟨by simpa using hl, fun i h h' => ?_⟩, rfl⟩
          exact hi (i + 1) (by simpa using h) (by simpa using h')
  rw [gen]
  constructor
  · rintro ⟨hl, hi⟩
    simp only [List.length_range] at hl
    exact ⟨hl, fun i h => by have := hi i h (by simp; omega); rwa [List.getElem_range] at this⟩
  · rintro ⟨hl, hi⟩
    exact ⟨by simpa using hl, fun i h _ => by rw [List.getElem_range]; exact hi i h⟩

/-- A collection is ended by some colour that cannot be read. -/
theorem mapM_range_error {n : Nat} {f : Nat → Perf α} {e : Stop} (h : (List.range n).mapM f = .error e) :
    ∃ i, i < n ∧ f i = .error e := by
  have gen : ∀ xs : List Nat, xs.mapM f = .error e → ∃ x ∈ xs, f x = .error e := by
    intro xs
    induction xs with
    | nil => simp
    | cons x xs ih =>
      intro h
      simp only [List.mapM_cons, perf_bind_error] at h
      rcases h with h | ⟨w, -, h⟩
      · exact ⟨x, by simp, h⟩
      · rcases h with h | ⟨vs, -, h⟩
        · obtain ⟨y, hy, hf⟩ := ih h; exact ⟨y, by simp [hy], hf⟩
        · simp at h
  obtain ⟨i, hi, hf⟩ := gen _ h
  exact ⟨i, by simpa using hi, hf⟩

/-- Two images that show the same words are collected alike. -/
theorem mapM_range_congr {n : Nat} {f g : Nat → Perf α} (h : ∀ i, i < n → f i = g i) :
    (List.range n).mapM f = (List.range n).mapM g := by
  have gen : ∀ xs : List Nat, (∀ x ∈ xs, f x = g x) → xs.mapM f = xs.mapM g := by
    intro xs
    induction xs with
    | nil => simp
    | cons x xs ih => intro h; simp [List.mapM_cons, h x (by simp), ih fun y hy => h y (by simp [hy])]
  exact gen _ fun i hi => h i (List.mem_range.mp hi)

end Monad

/-! ### Reads -/

theorem romByte_of_lt {s : State} {a : Nat} (h : a < s.params.romCap) : romByte s a = .ok (Memory.read s.rom a) := by
  simp [romByte, h]

theorem romByte_ok {s : State} {a : Nat} {b : Byte} :
    romByte s a = .ok b ↔ a < s.params.romCap ∧ b = Memory.read s.rom a := by
  unfold romByte; split <;> simp_all [eq_comm]

theorem romByte_error {s : State} {a : Nat} {e : Stop} :
    romByte s a = .error e ↔ s.params.romCap ≤ a ∧ e = .fault .romAddressAbsent := by
  unfold romByte; split <;> simp_all [eq_comm]

theorem palColour_of_read {s : State} {n : Nat} {c : Word} (h : Words.read s.pal n = some c) :
    palColour s n = .ok c := by simp [palColour, h]

theorem palColour_ok {s : State} {n : Nat} {c : Word} : palColour s n = .ok c ↔ Words.read s.pal n = some c := by
  unfold palColour; split <;> simp_all

theorem palColour_error {s : State} {n : Nat} {e : Stop} :
    palColour s n = .error e ↔ Words.read s.pal n = none ∧ e = .fault .paletteEntryUnwritten := by
  unfold palColour
  split
  · rename_i h; simp [h]
  · rename_i h; simp [h, eq_comm]

/-! ### Checks -/

@[simp] theorem require_ok {ok : Bool} {c : ErrCode} {a : Nat} {i : Word} {u : Unit} :
    require ok c a i = .ok u ↔ ok = true := by cases ok <;> simp [require]

theorem require_error {ok : Bool} {c : ErrCode} {a : Nat} {i : Word} {e : Stop} :
    require ok c a i = .error e ↔ ok = false ∧ e = .raised ⟨c, a, i⟩ := by
  cases ok <;> simp [require, eq_comm]

/-- The source's preconditions hold (R88, R89, R92). -/
theorem checkPreconditions_ok {s : State} :
    checkPreconditions s = .ok () ↔ s.argLen ≠ 0 ∧ 16 ≤ s.argPalCnt ∧ s.status.tblv = true := by
  simp [checkPreconditions, perf_bind_ok, show palMin = 16 from rfl]

/-- The error of the first precondition that fails (R96). -/
theorem checkPreconditions_error {s : State} {e : Stop} :
    checkPreconditions s = .error e ↔
      (s.argLen = 0 ∧ e = .raised ⟨.inputMissing, s.argOff, 0⟩) ∨
      (s.argLen ≠ 0 ∧ s.argPalCnt < 16 ∧ e = .raised ⟨.paletteTooSmall, s.argOff, 0⟩) ∨
      (s.argLen ≠ 0 ∧ 16 ≤ s.argPalCnt ∧ s.status.tblv = false ∧ e = .raised ⟨.tableNotBuilt, s.argOff, 0⟩) := by
  simp only [checkPreconditions, perf_bind_error, require_error, require_ok, decide_eq_false_iff_not, decide_eq_true_iff]
  simp [show palMin = 16 from rfl, and_or_left]

/-- The grid is neither empty nor too large (R93, R94). -/
theorem checkGrid_ok {s : State} {cw ch : Nat} :
    checkGrid s cw ch = .ok () ↔ s.argCnt ≠ 0 ∧ gridW cw s.argCnt * gridH ch s.argCnt ≤ s.params.canvasCap := by
  simp [checkGrid, perf_bind_ok]

/-- The error of the first grid check that fails (R96). -/
theorem checkGrid_error {s : State} {cw ch : Nat} {e : Stop} :
    checkGrid s cw ch = .error e ↔
      (s.argCnt = 0 ∧ e = .raised ⟨.countZero, s.argOff, 0⟩) ∨
      (s.argCnt ≠ 0 ∧ s.params.canvasCap < gridW cw s.argCnt * gridH ch s.argCnt ∧
        e = .raised ⟨.canvasOverflow, s.argOff, 0⟩) := by
  simp [checkGrid, perf_bind_error, require_error]

/-- A ROM range is in range (R68). -/
theorem checkRange_ok {s : State} {a n : Nat} {i : Word} : checkRange s a n i = .ok () ↔ a + n ≤ s.argLen := by
  simp [checkRange]

/-- A ROM range is not in range (R68, R90). -/
theorem checkRange_error {s : State} {a n : Nat} {i : Word} {e : Stop} :
    checkRange s a n i = .error e ↔ s.argLen < a + n ∧ e = .raised ⟨.outOfRange, a, i⟩ := by
  simp [checkRange, require_error]

/-! ### Completion -/

@[simp] theorem completeCommand_ok (s t : State) : completeCommand s (.ok t) = .next (successCompletion t) := rfl

@[simp] theorem completeCommand_raised (s : State) (e : CmdError) :
    completeCommand s (.error (.raised e)) = .next (errorCompletion e s) := rfl

@[simp] theorem completeCommand_fault (s : State) (f : Fault) :
    completeCommand s (.error (.fault f)) = .fault f := rfl

/-- Everything a completion that answers a next state can be (R86). -/
theorem completeCommand_next {s t : State} {r : Perf State} (h : completeCommand s r = .next t) :
    (∃ u, r = .ok u ∧ t = successCompletion u) ∨ (∃ e, r = .error (.raised e) ∧ t = errorCompletion e s) := by
  rcases r with (e | f) | u
  · right; exact ⟨e, rfl, by simpa [eq_comm] using h⟩
  · simp at h
  · left; exact ⟨u, rfl, by simpa [eq_comm] using h⟩

/-- No command is refused. -/
theorem completeCommand_ne_refused (s : State) (r : Perf State) (x : Refusal) :
    completeCommand s r ≠ .refused x := by rcases r with (e | f) | u <;> simp

end Sys2Proof.Machine
end

