-- ==== Sys2Proof/Laws/Datapath.lean ====
section
/-! SUPPORT. What each function of the datapath can answer: the table's arithmetic, the nibble and the colour of a
pixel, placement inside and outside a rectangle, meta-tile addressing, and the write of a result. -/

namespace Sys2Proof.Machine

open Sys2Proof

/-! ### The deinterleave table -/

theorem tableX_lt (i : BitVec 10) : tableX i < 32 := by unfold tableX; omega

theorem tableY_lt (i : BitVec 10) : tableY i < 32 := by have := i.isLt; unfold tableY; omega

theorem tableDest_lt {x y : Nat} (hx : x < 32) (hy : y < 32) : tableDest x y < 1024 := by unfold tableDest; omega

/-- An index is the destination of its coordinates. -/
theorem tableDest_tableXY (i : BitVec 10) : tableDest (tableX i) (tableY i) = i.toNat := by
  have h : ∀ n : Fin 1024, tableDest (tableX (BitVec.ofFin n)) (tableY (BitVec.ofFin n)) = n.val := by decide +kernel
  exact h i.toFin

theorem toNat_ofNat_tableDest {x y : Nat} (hx : x < 32) (hy : y < 32) :
    (BitVec.ofNat 10 (tableDest x y)).toNat = tableDest x y := by
  have := tableDest_lt hx hy
  simp [BitVec.toNat_ofNat]; omega

theorem tableX_dest {x y : Nat} (hx : x < 32) (hy : y < 32) : tableX (BitVec.ofNat 10 (tableDest x y)) = x := by
  have h : ∀ x y : Fin 32, tableX (BitVec.ofNat 10 (tableDest x.val y.val)) = x.val := by decide +kernel
  exact h ⟨x, hx⟩ ⟨y, hy⟩

theorem tableY_dest {x y : Nat} (hx : x < 32) (hy : y < 32) : tableY (BitVec.ofNat 10 (tableDest x y)) = y := by
  have h : ∀ x y : Fin 32, tableY (BitVec.ofNat 10 (tableDest x.val y.val)) = y.val := by decide +kernel
  exact h ⟨x, hx⟩ ⟨y, hy⟩

theorem tableEntry_toNat (i : BitVec 10) : (tableEntry i).toNat = tableSource (tableX i) (tableY i) := by
  have hx := tableX_lt i
  have hy := tableY_lt i
  have : tableSource (tableX i) (tableY i) < 2 ^ 10 := by unfold tableSource; omega
  rw [tableEntry, BitVec.toNat_ofNat, Nat.mod_eq_of_lt this]

/-- The table that BUILD writes, entry by entry. -/
theorem builtTable_get (i : BitVec 10) : builtTable[i.toNat]'i.isLt = tableEntry i := by
  simp [builtTable]

theorem tblEntry_of_built {s : State} (h : s.tbl = builtTable) (i : BitVec 10) : tblEntry s i = tableEntry i := by
  simp only [tblEntry, h]; exact builtTable_get i

/-! ### The pixel of a tile -/

theorem stream_byte_lt (j : BitVec 10) : j.toNat / 2 < 512 := by have := j.isLt; omega

theorem nib_of_lt {s : State} {off : Nat} {j : BitVec 10} (h : off + j.toNat / 2 < s.params.romCap) :
    nib s off j = .ok (nibbleOf (Memory.read s.rom (off + j.toNat / 2)) j) := by
  simp [nib, romByte_of_lt h]

/-- A nibble of a tile that lies inside the ROM space (R64). -/
theorem nib_of_tile {s : State} {off : Nat} (h : off + 512 ≤ s.params.romCap) (j : BitVec 10) :
    nib s off j = .ok (nibbleOf (Memory.read s.rom (off + j.toNat / 2)) j) :=
  nib_of_lt (by have := stream_byte_lt j; omega)

theorem nib_error {s : State} {off : Nat} {j : BitVec 10} {e : Stop} (h : nib s off j = .error e) :
    e = .fault .romAddressAbsent := by
  simp only [nib, perf_bind_error, perf_pure] at h
  rcases h with h | ⟨b, -, h⟩
  · exact (romByte_error.mp h).2
  · simp at h

/-- A pixel of a tile that lies inside the ROM space (R66). -/
theorem decodeTile_of_tile {s : State} {off : Nat} (h : off + 512 ≤ s.params.romCap) (i : Nat) :
    decodeTile s off i =
      palColour s (nibbleOf (Memory.read s.rom (off + (tblEntry s (BitVec.ofNat 10 i)).toNat / 2))
        (tblEntry s (BitVec.ofNat 10 i))).toNat := by
  simp [decodeTile, nib_of_tile h]

/-- A pixel that cannot be read is a fault, never an error. -/
theorem decodeTile_error {s : State} {off i : Nat} {e : Stop} (h : decodeTile s off i = .error e) :
    ∃ f, e = .fault f := by
  simp only [decodeTile, perf_bind_error] at h
  rcases h with h | ⟨n, -, h⟩
  · exact ⟨_, nib_error h⟩
  · exact ⟨_, (palColour_error.mp h).2⟩

/-- With at least 16 palette entries counted, no nibble is out of range (R65). -/
theorem checkNibbles_of_tile {s : State} {off : Nat} {info : Word} (hp : 16 ≤ s.argPalCnt)
    (h : off + 512 ≤ s.params.romCap) : checkNibbles s off info = .ok () := by
  refine forM_ok.mpr fun j _ => ?_
  rw [nib_of_tile h, perf_ok_bind, require_ok]
  have := (nibbleOf (Memory.read s.rom (off + (BitVec.ofNat 10 j).toNat / 2)) (BitVec.ofNat 10 j)).isLt
  exact decide_eq_true (by omega)

/-- With at least 16 palette entries counted, the nibble check raises no error (R91). -/
theorem checkNibbles_error {s : State} {off : Nat} {info : Word} {e : Stop} (hp : 16 ≤ s.argPalCnt)
    (h : checkNibbles s off info = .error e) : e = .fault .romAddressAbsent := by
  obtain ⟨pre, j, post, -, -, hj⟩ := forM_error.mp h
  rw [perf_bind_error] at hj
  rcases hj with hj | ⟨n, -, hj⟩
  · exact nib_error hj
  · have := (require_error.mp hj).1
    have hn := n.isLt
    simp at this; omega

/-! ### Placement -/

/-- Outside its rectangle a placement leaves the canvas (R71). -/
theorem place_outside {mode : Mode} {W X Y : Nat} {img : Image} {w h : Nat} {dst : Image} {a : Nat}
    (ha : ¬ (X ≤ a % W ∧ a % W < X + w ∧ Y ≤ a / W ∧ a / W < Y + h)) : place mode W X Y img w h dst a = dst a := by
  simp only [place]; rw [if_neg ha]

/-- A copy inside its rectangle (R71). -/
theorem place_copy_inside {W X Y : Nat} {img : Image} {w h : Nat} {dst : Image} {a : Nat}
    (ha : X ≤ a % W ∧ a % W < X + w ∧ Y ≤ a / W ∧ a / W < Y + h) :
    place .copy W X Y img w h dst a = img ((a / W - Y) * w + (a % W - X)) := by
  simp only [place]; rw [if_pos ha]
  cases img ((a / W - Y) * w + (a % W - X)) <;> rfl

/-- A masked placement inside its rectangle (R71). -/
theorem place_mask_inside {W X Y : Nat} {img : Image} {w h : Nat} {dst : Image} {a : Nat} {c d : Word}
    (ha : X ≤ a % W ∧ a % W < X + w ∧ Y ≤ a / W ∧ a / W < Y + h)
    (hc : img ((a / W - Y) * w + (a % W - X)) = .ok c) (hd : dst a = .ok d) :
    place .mask W X Y img w h dst a = .ok (blend d c) := by
  simp only [place]; rw [if_pos ha]
  simp [hc, hd]

/-- A placement looks at no canvas word but the one it writes (R71). -/
theorem place_congr {mode : Mode} {W X Y : Nat} {img : Image} {w h : Nat} {d d' : Image} {a : Nat} (hd : d a = d' a) :
    place mode W X Y img w h d a = place mode W X Y img w h d' a := by
  simp only [place, hd]

/-- The address of a pixel of a canvas splits back into its coordinates. -/
theorem pixel_mod {W x y : Nat} (hx : x < W) : (y * W + x) % W = x := by
  rw [Nat.add_comm, Nat.add_mul_mod_self_right]; exact Nat.mod_eq_of_lt hx

theorem pixel_div {W x y : Nat} (hx : x < W) : (y * W + x) / W = y := by
  rw [Nat.add_comm, Nat.add_mul_div_right _ _ (by omega), Nat.div_eq_of_lt hx, Nat.zero_add]

@[simp] theorem placeAll_zero (put : Nat → Image → Image) (dst : Image) : placeAll 0 put dst = dst := rfl

theorem placeAll_succ (n : Nat) (put : Nat → Image → Image) (dst : Image) :
    placeAll (n + 1) put dst = put n (placeAll n put dst) := by
  simp [placeAll, List.range_succ]

/-- A word that no placement covers keeps what it held. -/
theorem placeAll_untouched {n : Nat} {put : Nat → Image → Image} {dst : Image} {a : Nat}
    (h : ∀ k, k < n → ∀ d : Image, put k d a = d a) : placeAll n put dst a = dst a := by
  induction n with
  | zero => rfl
  | succ n ih => rw [placeAll_succ, h n (by omega), ih fun k hk => h k (by omega)]

/-- A word that one placement covers holds what that placement makes of the word before it. -/
theorem placeAll_once {n k : Nat} {put : Nat → Image → Image} {dst : Image} {a : Nat} (hk : k < n)
    (h : ∀ j, j < n → j ≠ k → ∀ d : Image, put j d a = d a)
    (hloc : ∀ d d' : Image, d a = d' a → put k d a = put k d' a) : placeAll n put dst a = put k dst a := by
  induction n with
  | zero => omega
  | succ n ih =>
    rw [placeAll_succ]
    by_cases hkn : k = n
    · subst hkn
      exact hloc _ _ (placeAll_untouched fun j hj => h j (by omega) (by omega))
    · rw [h n (by omega) (fun e => hkn e.symm)]
      exact ih (by omega) fun j hj => h j (by omega)

/-- A placement ends as the image does where the image cannot be read. -/
theorem place_src_error {mode : Mode} {W X Y : Nat} {img : Image} {w h : Nat} {dst : Image} {a : Nat} {e : Stop}
    (ha : X ≤ a % W ∧ a % W < X + w ∧ Y ≤ a / W ∧ a / W < Y + h)
    (hi : img ((a / W - Y) * w + (a % W - X)) = .error e) : place mode W X Y img w h dst a = .error e := by
  simp only [place]; rw [if_pos ha]
  simp [hi]

/-- A placement ends only as its image or its canvas can end. -/
theorem place_error {P : Stop → Prop} {mode : Mode} {W X Y : Nat} {img : Image} {w h : Nat} {dst : Image}
    (hi : ∀ tx ty e, tx < w → ty < h → img (ty * w + tx) = .error e → P e)
    (hd : ∀ i e, dst i = .error e → P e) : ∀ a e, place mode W X Y img w h dst a = .error e → P e := by
  intro a e he
  simp only [place] at he
  split at he
  · rename_i hr
    rw [perf_bind_error] at he
    rcases he with he | ⟨c, -, he⟩
    · exact hi _ _ _ (by omega) (by omega) he
    · cases mode
      · simp at he
      · rcases perf_bind_error.mp he with he | ⟨d, -, he⟩
        · exact hd _ _ he
        · simp at he
  · exact hd _ _ he

/-- Placements end only as each of them, over a canvas that ends so, can end. -/
theorem placeAll_error {P : Stop → Prop} {n : Nat} {put : Nat → Image → Image} {dst : Image}
    (hp : ∀ k d, k < n → (∀ i e, d i = .error e → P e) → ∀ i e, put k d i = .error e → P e)
    (hd : ∀ i e, dst i = .error e → P e) : ∀ a e, placeAll n put dst a = .error e → P e := by
  induction n with
  | zero => exact hd
  | succ n ih => rw [placeAll_succ]; exact hp n _ (by omega) (ih fun k d hk => hp k d (by omega))

/-! ### Meta-tile addressing -/

theorem field_low_byte (hi lo : Byte) : (hi ++ lo).extractLsb' 0 8 = lo := by
  apply BitVec.eq_of_getLsbD_eq
  intro i hi
  rw [BitVec.getLsbD_extractLsb', Nat.zero_add, BitVec.getLsbD_append]
  simp [hi]

/-- The index of a sub-tile is the second byte of its field; the first is read and discarded (R40, R74). -/
theorem subIndex_of_lt {s : State} {d k : Nat} (h : d + 2 * k + 1 < s.params.romCap) :
    subIndex s d k = .ok (Memory.read s.rom (d + 2 * k + 1)) := by
  have h0 : d + 2 * k < s.params.romCap := by omega
  simp [subIndex, romField, fieldOff, fieldBytes, romByte_of_lt h, romByte_of_lt h0, field_low_byte]

/-- Where a sub-tile starts (R75). -/
theorem subOff_of_lt {s : State} {d k : Nat} (h : d + 2 * k + 1 < s.params.romCap) :
    subOff s d k = .ok (0x12EF26 + 512 * (Memory.read s.rom (d + 2 * k + 1)).toNat) := by
  simp [subOff, subIndex_of_lt h, subTileOff, wallBase, tileBytes]

theorem subOff_error {s : State} {d k : Nat} {e : Stop} (h : subOff s d k = .error e) :
    e = .fault .romAddressAbsent := by
  simp only [subOff, subIndex, romField, perf_bind_error, perf_bind_ok, perf_pure] at h
  rcases h with (((h | ⟨b, -, h | ⟨c, -, h⟩⟩) | ⟨f, -, h⟩) | ⟨t, -, h⟩)
  · exact (romByte_error.mp h).2
  · exact (romByte_error.mp h).2
  all_goals simp at h

theorem subTile_error {s : State} {d k i : Nat} {e : Stop} (h : subTile s d k i = .error e) : ∃ f, e = .fault f := by
  simp only [subTile, perf_bind_error] at h
  rcases h with h | ⟨t, -, h⟩
  · exact ⟨_, subOff_error h⟩
  · exact decodeTile_error h

theorem filled_ne_error {c : Word} {i : Nat} {e : Stop} : filled c i ≠ .error e := by simp [filled]

theorem metaImage_error {s : State} {bg : Word} {d : Nat} {msub : Bool} :
    ∀ a e, metaImage s bg d msub a = .error e → ∃ f, e = .fault f :=
  placeAll_error (fun _ _ _ hd => place_error (fun _ _ _ _ _ h => subTile_error h) hd) fun _ _ h => absurd h filled_ne_error

/-- Every range of a meta-tile is in range (R84). -/
theorem checkMeta_ok {s : State} {m d : Nat} (hlen : s.argLen ≤ s.params.romCap) :
    checkMeta s m d = .ok () ↔ ∀ k, k < 8 → d + 2 * k + 2 ≤ s.argLen ∧
      0x12EF26 + 512 * (Memory.read s.rom (d + 2 * k + 1)).toNat + 512 ≤ s.argLen := by
  unfold checkMeta
  rw [forM_ok]
  simp only [List.mem_range]
  refine forall_congr' fun k => forall_congr' fun hk => ?_
  rw [perf_bind_ok]
  constructor
  · rintro ⟨⟨⟩, hf, h⟩
    have hf' : d + 2 * k + 2 ≤ s.argLen := checkRange_ok.mp hf
    rw [subOff_of_lt (by omega), perf_ok_bind] at h
    exact ⟨hf', checkRange_ok.mp h⟩
  · rintro ⟨hf, ht⟩
    refine ⟨(), checkRange_ok.mpr hf, ?_⟩
    rw [subOff_of_lt (by omega), perf_ok_bind]
    exact checkRange_ok.mpr ht

/-- The nibble check of a meta-tile whose ranges are in range passes (R91). -/
theorem checkMetaNibbles_of_ranges {s : State} {m d : Nat} (hp : 16 ≤ s.argPalCnt) (hlen : s.argLen ≤ s.params.romCap)
    (h : ∀ k, k < 8 → d + 2 * k + 2 ≤ s.argLen ∧
      0x12EF26 + 512 * (Memory.read s.rom (d + 2 * k + 1)).toNat + 512 ≤ s.argLen) :
    checkMetaNibbles s m d = .ok () := by
  unfold checkMetaNibbles
  rw [forM_ok]
  intro k hk
  obtain ⟨hf, ht⟩ := h k (List.mem_range.mp hk)
  rw [subOff_of_lt (by omega), perf_ok_bind]
  exact checkNibbles_of_tile hp (by omega)

theorem checkMetaNibbles_error {s : State} {m d : Nat} {e : Stop} (hp : 16 ≤ s.argPalCnt)
    (h : checkMetaNibbles s m d = .error e) : e = .fault .romAddressAbsent := by
  obtain ⟨pre, k, post, -, -, hk⟩ := forM_error.mp h
  rcases perf_bind_error.mp hk with hk | ⟨t, -, hk⟩
  · exact subOff_error hk
  · exact checkNibbles_error hp hk

/-- The first range of a meta-tile that is out of range (R84, R96), or a read outside the ROM space. -/
theorem checkMeta_error {s : State} {m d : Nat} {e : Stop} (h : checkMeta s m d = .error e) :
    e = .fault .romAddressAbsent ∨ ∃ k, k < 8 ∧ (∀ j, j < k → d + 2 * j + 2 ≤ s.argLen) ∧
      ((s.argLen < d + 2 * k + 2 ∧ e = .raised ⟨.outOfRange, d + 2 * k, fieldInfo m k⟩) ∨
        ∃ t, subOff s d k = .ok t ∧ s.argLen < t + 512 ∧ e = .raised ⟨.outOfRange, t, tileInfo m k⟩) := by
  obtain ⟨k, hk, hpre, h⟩ := forM_range_error.mp h
  have hpre' : ∀ j, j < k → d + 2 * j + 2 ≤ s.argLen := by
    intro j hj
    obtain ⟨⟨⟩, hf, -⟩ := perf_bind_ok.mp (hpre j hj)
    exact checkRange_ok.mp hf
  rcases perf_bind_error.mp h with h | ⟨⟨⟩, -, h⟩
  · exact .inr ⟨k, hk, hpre', .inl (checkRange_error.mp h)⟩
  · rcases perf_bind_error.mp h with h | ⟨t, ht, h⟩
    · exact .inl (subOff_error h)
    · exact .inr ⟨k, hk, hpre', .inr ⟨t, ht, checkRange_error.mp h⟩⟩

theorem subOff_lt {s : State} {d k t : Nat} (h : subOff s d k = .ok t) : t < 2 ^ 32 := by
  obtain ⟨b, -, h⟩ := perf_bind_ok.mp h
  have hb := b.isLt
  simp only [perf_pure, Except.ok.injEq, subTileOff, wallBase, tileBytes] at h
  omega

/-! ### Writing the result -/

/-- A result is written exactly when every colour can be read and the canvas is large enough; then the image stands
at the first words, the others keep what they held, and nothing changes but OUTW, OUTH and OUTV (R31). -/
theorem storeImage_ok {W H : Nat} {img : Image} {s t : State} (h : storeImage W H img s = .ok t) :
    W * H ≤ s.params.canvasCap ∧ ∃ ws : List Word, ws.length = W * H ∧
      (∀ i (hi : i < ws.length), img i = .ok ws[i]) ∧
      t = { s with canvas := Words.storeRun ws s.canvas, outW := BitVec.ofNat 32 W, outH := BitVec.ofNat 32 H,
                   status := s.status.imageValid } := by
  obtain ⟨ws, hws, h⟩ := perf_bind_ok.mp h
  obtain ⟨hl, hi⟩ := mapM_range_ok.mp hws
  split at h
  · rename_i hcap
    exact ⟨hcap, ws, hl, hi, by simpa [eq_comm] using h⟩
  · simp at h

/-- When every colour of the image can be read, the result is written, and each word below `W * H` holds its
colour. -/
theorem storeImage_of_colours {W H : Nat} {img : Image} {s : State} (px : Nat → Word)
    (hcap : W * H ≤ s.params.canvasCap) (himg : ∀ i, i < W * H → img i = .ok (px i)) :
    storeImage W H img s = .ok { s with
      canvas := Words.storeRun ((List.range (W * H)).map px) s.canvas
      outW := BitVec.ofNat 32 W
      outH := BitVec.ofNat 32 H
      status := s.status.imageValid } := by
  have : (List.range (W * H)).mapM img = .ok ((List.range (W * H)).map px) :=
    mapM_range_ok.mpr ⟨by simp, fun i hi => by simpa using himg i (by simpa using hi)⟩
  simp only [storeImage, this, perf_ok_bind]
  rw [if_pos hcap]; rfl

theorem read_storeRun_map (n : Nat) (px : Nat → Word) (m : Words) (a : Nat) :
    Words.read (Words.storeRun ((List.range n).map px) m) a = if a < n then some (px a) else Words.read m a := by
  rw [Words.read_storeRun]
  by_cases h : a < n <;> simp [h]

/-- Writing a result ends as its colours do when one of them cannot be read. -/
theorem storeImage_of_error {W H i : Nat} {img : Image} {s : State} {e : Stop} (hi : i < W * H)
    (himg : img i = .error e) (honly : ∀ j e', j < W * H → img j = .error e' → e' = e) : storeImage W H img s = .error e := by
  unfold storeImage
  cases hm : (List.range (W * H)).mapM img with
  | error e' =>
    obtain ⟨j, hlt, hj⟩ := mapM_range_error hm
    rw [honly j e' hlt hj]; rfl
  | ok ws =>
    obtain ⟨hl, hw⟩ := mapM_range_ok.mp hm
    have := hw i (by omega)
    rw [himg] at this; simp at this

/-- Writing a result ends early only in a fault. -/
theorem storeImage_error {W H : Nat} {img : Image} {s : State} {e : Stop}
    (hi : ∀ i e, img i = .error e → ∃ f, e = .fault f) (h : storeImage W H img s = .error e) : ∃ f, e = .fault f := by
  rcases perf_bind_error.mp h with h | ⟨ws, -, h⟩
  · obtain ⟨i, -, h⟩ := mapM_range_error h
    exact hi i e h
  · split at h
    · simp at h
    · exact ⟨_, by simpa [eq_comm] using h⟩

end Sys2Proof.Machine
end

