-- ==== Sys2Proof/Laws/Layout.lean ====
section
/-! SUPPORT. The layout arithmetic of grids and meta-tiles, and the pixel each composed image shows at an address. -/

namespace Sys2Proof.Machine

open Sys2Proof

/-! ### Grids (R73) -/

theorem gridCols_pos {cnt : Nat} (h : cnt ≠ 0) : 0 < gridCols cnt := by
  unfold gridCols maxColumns; omega

theorem gridCols_le (cnt : Nat) : gridCols cnt ≤ 16 := by unfold gridCols maxColumns; omega

theorem lt_gridRows {cnt k : Nat} (h : k < cnt) : k / gridCols cnt < gridRows cnt := by
  have hC := gridCols_pos (cnt := cnt) (by omega)
  unfold gridRows ceilDiv
  rw [Nat.div_lt_iff_lt_mul hC]
  have h1 := Nat.div_add_mod (cnt + gridCols cnt - 1) (gridCols cnt)
  have h2 := Nat.mod_lt (cnt + gridCols cnt - 1) hC
  rw [Nat.mul_comm] at h1
  omega

theorem le_cells {cnt : Nat} (h : cnt ≠ 0) : cnt ≤ gridCols cnt * gridRows cnt := by
  have hC := gridCols_pos h
  unfold gridRows ceilDiv
  have h1 := Nat.div_add_mod (cnt + gridCols cnt - 1) (gridCols cnt)
  have h2 := Nat.mod_lt (cnt + gridCols cnt - 1) hC
  omega

theorem gridRows_le {cnt : Nat} (h : cnt < 65536) : gridRows cnt ≤ 4096 := by
  unfold gridRows ceilDiv gridCols maxColumns
  by_cases h0 : cnt = 0
  · subst h0; decide
  by_cases hc : cnt ≤ 16
  · have hm : min cnt 16 = cnt := by omega
    have : (cnt + cnt - 1) / cnt < 2 := by
      rw [Nat.div_lt_iff_lt_mul (by omega)]; omega
    rw [hm]; omega
  · have : min cnt 16 = 16 := by omega
    rw [this]; omega

/-- A pixel of cell `k`: its column lies in the cell's columns, its row in the cell's rows. -/
theorem cell_of_pixel {cw ch cnt k x y : Nat} (hx : x < cw) (hy : y < ch) (hk : k < cnt) :
    cellX cw cnt k + x < gridW cw cnt ∧ cellY ch cnt k + y < gridH ch cnt := by
  have hC := gridCols_pos (cnt := cnt) (by omega)
  have h1 : k % gridCols cnt + 1 ≤ gridCols cnt := Nat.mod_lt _ hC
  have h2 : k / gridCols cnt + 1 ≤ gridRows cnt := lt_gridRows hk
  have h3 := Nat.mul_le_mul_left cw h1
  have h4 := Nat.mul_le_mul_left ch h2
  unfold cellX cellY gridW gridH
  rw [Nat.mul_succ] at h3 h4
  omega

/-- Two cells that share a pixel are one cell. -/
theorem cells_disjoint {cw ch cnt j k x y : Nat}
    (hx : cellX cw cnt j ≤ x ∧ x < cellX cw cnt j + cw) (hx' : cellX cw cnt k ≤ x ∧ x < cellX cw cnt k + cw)
    (hy : cellY ch cnt j ≤ y ∧ y < cellY ch cnt j + ch) (hy' : cellY ch cnt k ≤ y ∧ y < cellY ch cnt k + ch) :
    j = k := by
  have band : ∀ {w a b z : Nat}, w * a ≤ z → z < w * a + w → w * b ≤ z → z < w * b + w → a = b := by
    intro w a b z h1 h2 h3 h4
    have hw : 0 < w := by omega
    have ha : z / w = a := by
      rw [Nat.div_eq_iff hw]; constructor <;> rw [Nat.mul_comm] <;> omega
    have hb : z / w = b := by
      rw [Nat.div_eq_iff hw]; constructor <;> rw [Nat.mul_comm] <;> omega
    omega
  have hm := band hx.1 hx.2 hx'.1 hx'.2
  have hd := band hy.1 hy.2 hy'.1 hy'.2
  rw [← Nat.div_add_mod j (gridCols cnt), ← Nat.div_add_mod k (gridCols cnt), hm, hd]

/-- An address below `W * H` has a column and a row in the canvas. -/
theorem coords_of_lt {W H a : Nat} (h : a < W * H) : a % W < W ∧ a / W < H ∧ a = a / W * W + a % W := by
  have hW : 0 < W := Nat.pos_of_ne_zero fun e => by simp [e] at h
  exact ⟨Nat.mod_lt _ hW, (Nat.div_lt_iff_lt_mul hW).mpr (by rwa [Nat.mul_comm] at h),
    by rw [Nat.mul_comm]; exact (Nat.div_add_mod a W).symm⟩

/-- The cell an address of a grid lies in. -/
theorem cell_at {cw ch cnt x y : Nat} (hcw : 0 < cw) (hch : 0 < ch) (hx : x < gridW cw cnt) :
    cellX cw cnt (y / ch * gridCols cnt + x / cw) ≤ x ∧ x < cellX cw cnt (y / ch * gridCols cnt + x / cw) + cw ∧
    cellY ch cnt (y / ch * gridCols cnt + x / cw) ≤ y ∧ y < cellY ch cnt (y / ch * gridCols cnt + x / cw) + ch := by
  have hxc : x / cw < gridCols cnt := by
    rw [Nat.div_lt_iff_lt_mul hcw, Nat.mul_comm]; exact hx
  have h1 : (y / ch * gridCols cnt + x / cw) % gridCols cnt = x / cw := pixel_mod hxc
  have h2 : (y / ch * gridCols cnt + x / cw) / gridCols cnt = y / ch := pixel_div hxc
  unfold cellX cellY
  rw [h1, h2]
  have h3 := Nat.div_add_mod x cw
  have h4 := Nat.div_add_mod y ch
  have h5 := Nat.mod_lt x hcw
  have h6 := Nat.mod_lt y hch
  omega

/-- A pixel inside a canvas has an address inside it. -/
theorem pixel_lt {W H x y : Nat} (hx : x < W) (hy : y < H) : y * W + x < W * H := by
  have h := Nat.mul_le_mul_right W (show y + 1 ≤ H from hy)
  rw [Nat.succ_mul, Nat.mul_comm H W] at h
  omega

/-- Every address of a grid's canvas is a pixel of one of its cells, or lies right of the last cell. -/
theorem grid_cover {cw ch cnt a : Nat} (hcw : 0 < cw) (hch : 0 < ch) (ha : a < gridW cw cnt * gridH ch cnt) :
    (∃ k x y, k < cnt ∧ x < cw ∧ y < ch ∧ a = (cellY ch cnt k + y) * gridW cw cnt + (cellX cw cnt k + x)) ∨
    (∃ x y, x < gridW cw cnt ∧ y < gridH ch cnt ∧ cnt ≤ y / ch * gridCols cnt + x / cw ∧ a = y * gridW cw cnt + x) := by
  obtain ⟨hx, hy, e⟩ := coords_of_lt ha
  by_cases hk : cnt ≤ a / gridW cw cnt / ch * gridCols cnt + a % gridW cw cnt / cw
  · exact .inr ⟨_, _, hx, hy, hk, e⟩
  · obtain ⟨g1, g2, g3, g4⟩ := cell_at (y := a / gridW cw cnt) hcw hch hx
    generalize a / gridW cw cnt / ch * gridCols cnt + a % gridW cw cnt / cw = k at hk g1 g2 g3 g4
    refine .inl ⟨k, a % gridW cw cnt - cellX cw cnt k, a / gridW cw cnt - cellY ch cnt k,
      Nat.lt_of_not_le hk, by omega, by omega, ?_⟩
    rw [Nat.add_sub_cancel' g3, Nat.add_sub_cancel' g1]
    exact e

/-! ### Placing the cells of a grid -/

/-- What a grid of placements shows inside cell `k`: what the placement of cell `k` alone shows. -/
theorem placeAll_cell {mode : Mode} {cw ch cnt k x y : Nat} {img : Nat → Image} {dst : Image}
    (hk : k < cnt) (hx : x < cw) (hy : y < ch) :
    placeAll cnt (fun j => place mode (gridW cw cnt) (cellX cw cnt j) (cellY ch cnt j) (img j) cw ch) dst
        ((cellY ch cnt k + y) * gridW cw cnt + (cellX cw cnt k + x)) =
      place mode (gridW cw cnt) (cellX cw cnt k) (cellY ch cnt k) (img k) cw ch dst
        ((cellY ch cnt k + y) * gridW cw cnt + (cellX cw cnt k + x)) := by
  have hW := (cell_of_pixel hx hy hk).1
  refine placeAll_once hk (fun j _ hjk d => ?_) fun d d' => place_congr
  refine place_outside ?_
  rw [pixel_mod hW, pixel_div hW]
  rintro ⟨h1, h2, h3, h4⟩
  exact hjk (cells_disjoint (x := cellX cw cnt k + x) (y := cellY ch cnt k + y)
    ⟨h1, h2⟩ ⟨by omega, by omega⟩ ⟨h3, h4⟩ ⟨by omega, by omega⟩)

/-- What a grid of placements shows right of its last cell: the canvas it was placed on. -/
theorem placeAll_beyond {mode : Mode} {cw ch cnt x y : Nat} {img : Nat → Image} {dst : Image}
    (hx : x < gridW cw cnt) (hcell : cnt ≤ y / ch * gridCols cnt + x / cw) :
    placeAll cnt (fun j => place mode (gridW cw cnt) (cellX cw cnt j) (cellY ch cnt j) (img j) cw ch) dst
        (y * gridW cw cnt + x) = dst (y * gridW cw cnt + x) := by
  refine placeAll_untouched fun j hj d => place_outside ?_
  rw [pixel_mod hx, pixel_div hx]
  rintro ⟨h1, h2, h3, h4⟩
  have hcw : 0 < cw := by omega
  have hch : 0 < ch := by omega
  obtain ⟨g1, g2, g3, g4⟩ := cell_at (y := y) hcw hch hx
  have := cells_disjoint ⟨h1, h2⟩ ⟨g1, g2⟩ ⟨h3, h4⟩ ⟨g3, g4⟩
  omega

/-- A placement of one image at its own place: the pixel of the image. -/
theorem place_at {mode : Mode} {W X Y w h x y : Nat} {img : Image} {dst : Image} {c d : Word}
    (hx : x < w) (hy : y < h) (hW : X + x < W) (hc : img (y * w + x) = .ok c)
    (hd : dst ((Y + y) * W + (X + x)) = .ok d) :
    place mode W X Y img w h dst ((Y + y) * W + (X + x)) =
      .ok (match mode with | .copy => c | .mask => blend d c) := by
  have hm : ((Y + y) * W + (X + x)) % W = X + x := pixel_mod hW
  have hq : ((Y + y) * W + (X + x)) / W = Y + y := pixel_div hW
  have hin : X ≤ ((Y + y) * W + (X + x)) % W ∧ ((Y + y) * W + (X + x)) % W < X + w ∧
      Y ≤ ((Y + y) * W + (X + x)) / W ∧ ((Y + y) * W + (X + x)) / W < Y + h := by
    rw [hm, hq]; omega
  have hidx : (((Y + y) * W + (X + x)) / W - Y) * w + (((Y + y) * W + (X + x)) % W - X) = y * w + x := by
    rw [hm, hq, Nat.add_sub_cancel_left, Nat.add_sub_cancel_left]
  cases mode
  · rw [place_copy_inside hin, hidx]; exact hc
  · exact place_mask_inside hin (by rw [hidx]; exact hc) hd

/-! ### Meta-tiles (R76, R77) -/

/-- The pixel of sub-tile `k` in a meta-tile image. -/
theorem metaImage_pixel {s : State} {bg c : Word} {d k x y : Nat} {msub : Bool} (hk : k < 8) (hx : x < 32)
    (hy : y < 32) (hc : subTile s d k (y * 32 + x) = .ok c) :
    metaImage s bg d msub ((32 * (k % 2) + y) * 128 + (32 * (k / 2) + x)) =
      .ok (if msub then blend bg c else c) := by
  have hW : 32 * (k / 2) + x < 128 := by omega
  have hX : subX k = 32 * (k / 2) := by unfold subX tileSide; omega
  have hY : subY k = 32 * (k % 2) := by unfold subY tileSide; omega
  unfold metaImage
  rw [placeAll_once (k := k) (by simpa [metaSubs] using hk)]
  · have := place_at (mode := Mode.ofFlag msub) (W := metaW) (X := 32 * (k / 2)) (Y := 32 * (k % 2))
      (w := tileSide) (h := tileSide) (dst := filled bg) (d := bg) hx hy hW hc rfl
    simp only [hX, hY]
    rw [show metaW = 128 from rfl] at this ⊢
    rw [this]
    cases msub <;> rfl
  · intro j hj hjk dst
    refine place_outside ?_
    rw [show metaW = 128 from rfl, pixel_mod hW, pixel_div hW]
    rintro ⟨h1, h2, h3, h4⟩
    simp only [subX, subY, tileSide, metaSubs] at h1 h2 h3 h4 hj
    omega
  · exact fun _ _ => place_congr

/-- Every address of a meta-tile image belongs to a pixel of one sub-tile. -/
theorem metaImage_cover {a : Nat} (ha : a < 8192) : ∃ k x y, k < 8 ∧ x < 32 ∧ y < 32 ∧
    a = (32 * (k % 2) + y) * 128 + (32 * (k / 2) + x) := by
  refine ⟨2 * (a % 128 / 32) + a / 128 / 32, a % 32, a / 128 % 32, ?_, ?_, ?_, ?_⟩ <;> omega

end Sys2Proof.Machine
end

