-- ==== Sys2Proof/Laws/Commands.lean ====
section
/-! SUPPORT. What each command can answer: the errors its checks raise, the image its success stores, and ERRINFO as a
number; and that the configuration is a legal one. -/

namespace Sys2Proof.Machine

open Sys2Proof

/-- The configuration the machine is reset with meets the constraints of R10. -/
theorem config_params_legal : Config.params.legal := by
  unfold Config.params; split
  · assumption
  · decide

/-- An entry of the table that BUILD writes, by its number. -/
theorem builtTable_getElem? {n : Nat} (h : n < 1024) : builtTable[n]? = some (tableEntry (BitVec.ofNat 10 n)) := by
  rw [Vector.getElem?_eq_getElem h]; simp [builtTable]

/-! ### ERRINFO as a number (R23) -/

theorem tileInfo_eq {u k : Nat} (hu : u < 65536) (hk : k < 8) : tileInfo u k = BitVec.ofNat 32 (u + k * 2 ^ 16) := by
  have h : ∀ k : Fin 8, (0#11 ++ 0#1 ++ 0#1 ++ BitVec.ofNat 3 k.val) = BitVec.ofNat 16 k.val := by decide
  have e : tileInfo u k = (BitVec.ofNat 16 k ++ BitVec.ofNat 16 u : BitVec 32) :=
    congrArg (fun z : BitVec 16 => (z ++ BitVec.ofNat 16 u : BitVec 32)) (h ⟨k, hk⟩)
  rw [e]
  apply BitVec.eq_of_toNat_eq
  rw [BitVec.toNat_append, BitVec.toNat_ofNat, BitVec.toNat_ofNat, BitVec.toNat_ofNat,
    ← Nat.shiftLeft_add_eq_or_of_lt (Nat.mod_lt _ (by decide)), Nat.shiftLeft_eq]
  omega

theorem fieldInfo_eq {u k : Nat} (hu : u < 65536) (hk : k < 8) :
    fieldInfo u k = BitVec.ofNat 32 (u + k * 2 ^ 16 + 2 ^ 20) := by
  have h : ∀ k : Fin 8, (0#11 ++ 1#1 ++ 0#1 ++ BitVec.ofNat 3 k.val) = BitVec.ofNat 16 (k.val + 16) := by decide
  have e : fieldInfo u k = (BitVec.ofNat 16 (k + 16) ++ BitVec.ofNat 16 u : BitVec 32) :=
    congrArg (fun z : BitVec 16 => (z ++ BitVec.ofNat 16 u : BitVec 32)) (h ⟨k, hk⟩)
  rw [e]
  apply BitVec.eq_of_toNat_eq
  rw [BitVec.toNat_append, BitVec.toNat_ofNat, BitVec.toNat_ofNat, BitVec.toNat_ofNat,
    ← Nat.shiftLeft_add_eq_or_of_lt (Nat.mod_lt _ (by decide)), Nat.shiftLeft_eq]
  omega

/-! ### The errors a command can raise (R96) -/

/-- The error of a run of tiles: the first that is out of range (R90). -/
theorem checkTiles_error {s : State} {n : Nat} {g : Nat → Nat} {info : Nat → Word} {e : Stop}
    (h : (List.range n).forM (fun k => checkRange s (g k) tileBytes (info k)) = .error e) :
    ∃ k, k < n ∧ (∀ j, j < k → g j + 512 ≤ s.argLen) ∧ s.argLen < g k + 512 ∧
      e = .raised ⟨.outOfRange, g k, info k⟩ := by
  obtain ⟨k, hk, hpre, h⟩ := forM_range_error.mp h
  exact ⟨k, hk, fun j hj => checkRange_ok.mp (hpre j hj), checkRange_error.mp h⟩

/-- The errors of RENDER (R81). -/
theorem renderWrites_raised {s : State} {e : CmdError} (h : renderWrites s = .error (.raised e)) :
    checkPreconditions s = .error (.raised e) ∨ e = ⟨.outOfRange, s.argOff, tileInfo 0 0⟩ := by
  unfold renderWrites at h
  rcases perf_bind_error.mp h with h | ⟨⟨⟩, h1, h⟩
  · exact .inl h
  have hp := (checkPreconditions_ok.mp h1).2.1
  rcases perf_bind_error.mp h with h | ⟨⟨⟩, h2, h⟩
  · have := (checkRange_error.mp h).2
    simp only [Stop.raised.injEq] at this
    exact .inr this
  rcases perf_bind_error.mp h with h | ⟨⟨⟩, h3, h⟩
  · have := checkNibbles_error hp h; simp at this
  obtain ⟨f, hf⟩ := storeImage_error (fun i e h => decodeTile_error h) h
  simp at hf

/-- The errors of COMPOSE (R83). -/
theorem composeWrites_raised {s : State} {e : CmdError} (h : composeWrites s = .error (.raised e)) :
    checkPreconditions s = .error (.raised e) ∨ checkGrid s tileSide tileSide = .error (.raised e) ∨
    ∃ k, k < s.argCnt ∧ (∀ j, j < k → tileOff s.argOff j + 512 ≤ s.argLen) ∧
      e = ⟨.outOfRange, tileOff s.argOff k, tileInfo k 0⟩ := by
  unfold composeWrites at h
  rcases perf_bind_error.mp h with h | ⟨⟨⟩, h1, h⟩
  · exact .inl h
  have hp := (checkPreconditions_ok.mp h1).2.1
  rcases perf_bind_error.mp h with h | ⟨⟨⟩, h2, h⟩
  · exact .inr (.inl h)
  rcases perf_bind_error.mp h with h | ⟨⟨⟩, h3, h⟩
  · obtain ⟨k, hk, hpre, -, he⟩ := checkTiles_error h
    simp only [Stop.raised.injEq] at he
    exact .inr (.inr ⟨k, hk, hpre, he⟩)
  rcases perf_bind_error.mp h with h | ⟨⟨⟩, h4, h⟩
  · obtain ⟨k, -, -, h⟩ := forM_range_error.mp h
    have := checkNibbles_error hp h; simp at this
  rcases perf_bind_error.mp h with h | ⟨bg, h5, h⟩
  · have := (palColour_error.mp h).2; simp at this
  obtain ⟨f, hf⟩ := storeImage_error (placeAll_error
    (fun k d _ hd => place_error (fun _ _ _ _ _ h => decodeTile_error h) hd) (fun _ _ h => absurd h filled_ne_error)) h
  simp at hf

/-- An error of the meta-tile at `d` (R84): of a field, or of the sub-tile it names, the fields before it in range. -/
def metaRaises (s : State) (m d : Nat) (e : CmdError) : Prop :=
  ∃ k, k < 8 ∧ (∀ j, j < k → d + 2 * j + 2 ≤ s.argLen) ∧
    (e = ⟨.outOfRange, d + 2 * k, fieldInfo m k⟩ ∨ ∃ t, subOff s d k = .ok t ∧ e = ⟨.outOfRange, t, tileInfo m k⟩)

theorem checkMeta_raised {s : State} {m d : Nat} {e : CmdError} (h : checkMeta s m d = .error (.raised e)) :
    metaRaises s m d e := by
  rcases checkMeta_error h with h | ⟨k, hk, hp, ⟨-, h⟩ | ⟨t, ht, -, h⟩⟩
  · simp at h
  · simp only [Stop.raised.injEq] at h; exact ⟨k, hk, hp, .inl h⟩
  · simp only [Stop.raised.injEq] at h; exact ⟨k, hk, hp, .inr ⟨t, ht, h⟩⟩

/-- A meta-tile in range has its whole descriptor in range. -/
theorem checkMeta_descriptor {s : State} {m d : Nat} (h : checkMeta s m d = .ok ()) : d + 16 ≤ s.argLen := by
  have := forM_ok.mp h 7 (by decide)
  obtain ⟨_, h1, -⟩ := perf_bind_ok.mp this
  have := checkRange_ok.mp h1
  simp only [fieldOff, fieldBytes] at this; omega

/-- The errors of META (R84). -/
theorem metaTileWrites_raised {s : State} {msub : Bool} {e : CmdError}
    (h : metaTileWrites msub s = .error (.raised e)) :
    checkPreconditions s = .error (.raised e) ∨ metaRaises s 0 s.argOff e := by
  unfold metaTileWrites at h
  rcases perf_bind_error.mp h with h | ⟨⟨⟩, h1, h⟩
  · exact .inl h
  have hp := (checkPreconditions_ok.mp h1).2.1
  rcases perf_bind_error.mp h with h | ⟨⟨⟩, h3, h⟩
  · exact .inr (checkMeta_raised h)
  rcases perf_bind_error.mp h with h | ⟨⟨⟩, h4, h⟩
  · have := checkMetaNibbles_error hp h; simp at this
  rcases perf_bind_error.mp h with h | ⟨bg, h5, h⟩
  · have := (palColour_error.mp h).2; simp at this
  obtain ⟨f, hf⟩ := storeImage_error (fun i e h => metaImage_error i e h) h
  simp at hf

/-- The errors of METAGRID (R85). -/
theorem metaGridWrites_raised {s : State} {msub mgrid : Bool} {e : CmdError}
    (h : metaGridWrites msub mgrid s = .error (.raised e)) :
    checkPreconditions s = .error (.raised e) ∨ checkGrid s metaW metaH = .error (.raised e) ∨
    ∃ m, m < s.argCnt ∧ (∀ j, j < m → descOff s.argOff j + 16 ≤ s.argLen) ∧
      metaRaises s m (descOff s.argOff m) e := by
  unfold metaGridWrites at h
  rcases perf_bind_error.mp h with h | ⟨⟨⟩, h1, h⟩
  · exact .inl h
  have hp := (checkPreconditions_ok.mp h1).2.1
  rcases perf_bind_error.mp h with h | ⟨⟨⟩, h2, h⟩
  · exact .inr (.inl h)
  rcases perf_bind_error.mp h with h | ⟨⟨⟩, h3, h⟩
  · obtain ⟨m, hm, hpre, h⟩ := forM_range_error.mp h
    exact .inr (.inr ⟨m, hm, fun j hj => checkMeta_descriptor (hpre j hj), checkMeta_raised h⟩)
  rcases perf_bind_error.mp h with h | ⟨⟨⟩, h4, h⟩
  · obtain ⟨k, -, -, h⟩ := forM_range_error.mp h
    have := checkMetaNibbles_error hp h; simp at this
  rcases perf_bind_error.mp h with h | ⟨bg, h5, h⟩
  · have := (palColour_error.mp h).2; simp at this
  obtain ⟨f, hf⟩ := storeImage_error (placeAll_error
    (fun k d _ hd => place_error (fun _ _ _ _ _ h => metaImage_error _ _ h) hd) (fun _ _ h => absurd h filled_ne_error)) h
  simp at hf

/-! ### What a command that succeeds has stored -/

theorem renderWrites_ok {s t : State} (h : renderWrites s = .ok t) :
    checkPreconditions s = .ok () ∧ storeImage tileSide tileSide (decodeTile s s.argOff) s = .ok t := by
  unfold renderWrites at h
  obtain ⟨⟨⟩, h1, h⟩ := perf_bind_ok.mp h
  obtain ⟨⟨⟩, -, h⟩ := perf_bind_ok.mp h
  obtain ⟨⟨⟩, -, h⟩ := perf_bind_ok.mp h
  exact ⟨h1, h⟩

theorem composeWrites_ok {s t : State} (h : composeWrites s = .ok t) : checkPreconditions s = .ok () ∧ s.argCnt ≠ 0 ∧
    ∃ bg, storeImage (gridW tileSide s.argCnt) (gridH tileSide s.argCnt) (composeImage s bg) s = .ok t := by
  unfold composeWrites at h
  obtain ⟨⟨⟩, h1, h⟩ := perf_bind_ok.mp h
  obtain ⟨⟨⟩, h2, h⟩ := perf_bind_ok.mp h
  obtain ⟨⟨⟩, -, h⟩ := perf_bind_ok.mp h
  obtain ⟨⟨⟩, -, h⟩ := perf_bind_ok.mp h
  obtain ⟨bg, -, h⟩ := perf_bind_ok.mp h
  exact ⟨h1, (checkGrid_ok.mp h2).1, bg, h⟩

theorem metaTileWrites_ok {s t : State} {msub : Bool} (h : metaTileWrites msub s = .ok t) :
    checkPreconditions s = .ok () ∧ ∃ bg, storeImage metaW metaH (metaImage s bg s.argOff msub) s = .ok t := by
  unfold metaTileWrites at h
  obtain ⟨⟨⟩, h1, h⟩ := perf_bind_ok.mp h
  obtain ⟨⟨⟩, -, h⟩ := perf_bind_ok.mp h
  obtain ⟨⟨⟩, -, h⟩ := perf_bind_ok.mp h
  obtain ⟨bg, -, h⟩ := perf_bind_ok.mp h
  exact ⟨h1, bg, h⟩

theorem metaGridWrites_ok {s t : State} {msub mgrid : Bool} (h : metaGridWrites msub mgrid s = .ok t) :
    checkPreconditions s = .ok () ∧ s.argCnt ≠ 0 ∧
    ∃ bg, storeImage (gridW metaW s.argCnt) (gridH metaH s.argCnt) (metaGridImage s bg msub mgrid) s = .ok t := by
  unfold metaGridWrites at h
  obtain ⟨⟨⟩, h1, h⟩ := perf_bind_ok.mp h
  obtain ⟨⟨⟩, h2, h⟩ := perf_bind_ok.mp h
  obtain ⟨⟨⟩, -, h⟩ := perf_bind_ok.mp h
  obtain ⟨⟨⟩, -, h⟩ := perf_bind_ok.mp h
  obtain ⟨bg, -, h⟩ := perf_bind_ok.mp h
  exact ⟨h1, (checkGrid_ok.mp h2).1, bg, h⟩

end Sys2Proof.Machine
end

