-- ==== Sys2Proof/Laws/HostPort.lean ====
section
/-! SUPPORT. The register map and the host accesses: which word a REG offset is, and what an access to it answers. -/

namespace Sys2Proof.Machine

open Sys2Proof

/-- The two low address bits are ignored (R35). -/
theorem slotAt_of_div {off k : Nat} (h : off / 4 = k) : slotAt off = slotAt (4 * k) := by
  unfold slotAt; rw [h, Nat.mul_div_cancel_left _ (by decide)]

theorem slotAt_add {off b : Nat} (h : 4 ∣ off) (hb : b < 4) : slotAt (off + b) = slotAt off := by
  obtain ⟨k, rfl⟩ := h
  exact slotAt_of_div (by omega)

theorem slotAt_tbl (i : BitVec 10) : slotAt (0x1000 + 4 * i.toNat) = .tbl i := by
  have := i.isLt
  rw [slotAt_of_div (k := 1024 + i.toNat) (by omega)]
  unfold slotAt
  rw [Nat.mul_div_cancel_left _ (by decide)]
  split <;> try omega
  rw [if_pos (by simp only [tblWindow]; omega)]
  simp [tblWindow]

theorem slotAt_pal {n : Nat} (h : n < 256) : slotAt (0x2000 + 4 * n) = .pal n := by
  rw [slotAt_of_div (k := 2048 + n) (by omega)]
  unfold slotAt
  rw [Nat.mul_div_cancel_left _ (by decide)]
  split <;> try omega
  rw [if_neg (by simp only [tblWindow]; omega), if_pos (by simp only [palWindow, palCap]; omega)]
  simp [palWindow]

theorem slotAt_reserved {off : Nat} (h : (0x028 ≤ off ∧ off < 0x1000) ∨ (0x2400 ≤ off ∧ off < 0x4000)) :
    slotAt off = .reserved := by
  have hk : 10 ≤ off / 4 ∧ (off / 4 < 1024 ∨ 2304 ≤ off / 4) := by omega
  unfold slotAt
  generalize off / 4 = k at hk
  have h1 : ¬ (tblWindow / 4 ≤ k ∧ k < tblWindow / 4 + 1024) := by rw [show tblWindow / 4 = 1024 from rfl]; omega
  have h2 : ¬ (palWindow / 4 ≤ k ∧ k < palWindow / 4 + palCap) := by
    rw [show palWindow / 4 = 2048 from rfl, show palCap = 256 from rfl]; omega
  split <;> first | omega | rw [if_neg h1, if_neg h2]

/-- Any palette slot lies in the palette (R15). -/
theorem slotAt_eq_pal {off n : Nat} (h : slotAt off = .pal n) : n < 256 := by
  unfold slotAt at h
  split at h <;> try simp at h
  split at h
  · simp at h
  · split at h
    · rename_i hp
      simp only [palWindow, palCap, Slot.pal.injEq] at h hp
      omega
    · simp at h

/-- A read of a REG offset (R35). -/
theorem hostRead_reg {s : State} {off : Nat} (hr : s.inReset = false) (h : off < 0x4000) :
    hostRead (.reg off) s = .next (deliver (readSlot s (slotAt off)) s) := by
  simp [hostRead, hostAccess, hr, placeOf, regBytes, h]

/-- A write of a REG offset (R35). -/
theorem hostWrite_reg {s : State} {off : Nat} {v : Word} (hr : s.inReset = false) (h : off < 0x4000) :
    hostWrite (.reg off) v s = .next (writeSlot v s (slotAt off)) := by
  simp [hostWrite, hostAccess, hr, placeOf, regBytes, h]

/-- A read of an OUT offset (R38). -/
theorem hostRead_out {s : State} {off : Nat} (hr : s.inReset = false) :
    hostRead (.out off) s = .next (deliver (readOut s off) s) := by
  simp [hostRead, hostAccess, hr, placeOf]

/-- Everything a host access that answers a next state can have done. -/
theorem hostAccess_next {t : Target} {s u : State} {onReg onOut : Nat → State}
    (h : hostAccess t s onReg onOut = .next u) :
    s.inReset = false ∧ ((∃ off, u = onReg off) ∨ ∃ off, u = onOut off) := by
  unfold hostAccess at h
  split at h
  · simp at h
  · rename_i hr
    refine ⟨by simpa using hr, ?_⟩
    split at h <;> simp only [Host.Outcome.next.injEq, reduceCtorEq] at h
    · exact .inl ⟨_, h.symm⟩
    · exact .inr ⟨_, h.symm⟩

/-- Everything a write to a REG word can leave. -/
theorem writeSlot_cases (v : Word) (s : State) (k : Slot) :
    writeSlot v s k = s ∨ writeSlot v s k = acknowledge v s ∨
    (s.status.busy = true ∧ writeSlot v s k = { s with status := s.status.lost }) ∨
    (s.status.busy = false ∧
      (writeSlot v s k = acceptCommand v s ∨ writeSlot v s k = { s with offset := v } ∨
       writeSlot v s k = { s with count := v.setWidth 16 } ∨ writeSlot v s k = { s with romLen := romLenStored s v } ∨
       writeSlot v s k = { s with palCnt := palCntStored v } ∨
       ∃ n, k = .pal n ∧ writeSlot v s k = { s with pal := Words.write s.pal n v })) := by
  cases hb : s.status.busy <;> cases k <;> simp [writeSlot, hb]

end Sys2Proof.Machine
end

