-- ==== Sys2Proof/Laws/PerInstr.lean ====
section
/-! SUPPORT. The families of statements about each command as syntax. -/

/-- The fields of the word a command is encoded as are the command's fields, and they are well formed (R51, R54). -/
def Sys2Proof.Laws.EncodedFields.Statement (i : Sys2Proof.Instr) : Prop :=
  Sys2Proof.CmdFields.ofWord (Sys2Proof.encode i) = i.fields ∧ i.wellFormed = true

theorem Sys2Proof.Laws.EncodedFields.build : Sys2Proof.Laws.EncodedFields.Statement .build := by
  constructor <;> decide

theorem Sys2Proof.Laws.EncodedFields.render : Sys2Proof.Laws.EncodedFields.Statement .render := by
  constructor <;> decide

theorem Sys2Proof.Laws.EncodedFields.compose : Sys2Proof.Laws.EncodedFields.Statement .compose := by
  constructor <;> decide

theorem Sys2Proof.Laws.EncodedFields.metaTile (msub : Bool) :
    Sys2Proof.Laws.EncodedFields.Statement (.metaTile msub) := by
  cases msub <;> constructor <;> decide

theorem Sys2Proof.Laws.EncodedFields.metaGrid (msub mgrid : Bool) :
    Sys2Proof.Laws.EncodedFields.Statement (.metaGrid msub mgrid) := by
  cases msub <;> cases mgrid <;> constructor <;> decide
end

