-- ==== Sys2Proof/Tests/Slice0.lean ====
section
/-! SUPPORT. Tests: the well-formedness smoke test, decoding of words written out from the encodings of R51 and R54,
the vectors of 95_test_vectors.md, and a state that meets the hypotheses of each statement. -/

namespace Sys2Proof.Machine.Tests

open Sys2Proof

/-! ## Well-formedness: an ill-formed term for each check -/

theorem test_wf_refuses_op_0 : (CmdFields.mk 0 false false 0).opDefined = false := by decide
theorem test_wf_refuses_op_6 : (CmdFields.mk 6 false false 0).wellFormed = false := by decide
theorem test_wf_refuses_reserved_bit : (CmdFields.mk 1 false false 1).reservedClear = false := by decide
theorem test_wf_refuses_reserved_word : (CmdFields.mk 3 false false 0x1000000).wellFormed = false := by decide
theorem test_wf_refuses_msub_on_compose : (CmdFields.mk 3 true false 0).msubAllowed = false := by decide
theorem test_wf_refuses_mgrid_on_meta : (CmdFields.mk 4 false true 0).mgridAllowed = false := by decide
theorem test_wf_accepts_metagrid : (CmdFields.mk 5 true true 0).wellFormed = true := by decide

/-! ## Decoding: words written out bit by bit from R51 -/

theorem test_decode_build : decode 0b00000000000000000000000000000001 = .ok .build := by decide
theorem test_decode_render : decode 0b00000000000000000000000000000010 = .ok .render := by decide
theorem test_decode_compose : decode 0b00000000000000000000000000000011 = .ok .compose := by decide
theorem test_decode_meta : decode 0b00000000000000000000000000000100 = .ok (.metaTile false) := by decide
theorem test_decode_meta_s : decode 0b00000000000000000000000000010100 = .ok (.metaTile true) := by decide
theorem test_decode_metagrid : decode 0b00000000000000000000000000000101 = .ok (.metaGrid false false) := by decide
theorem test_decode_metagrid_s : decode 0b00000000000000000000000000010101 = .ok (.metaGrid true false) := by decide
theorem test_decode_metagrid_g : decode 0b00000000000000000000000000100101 = .ok (.metaGrid false true) := by decide
theorem test_decode_metagrid_sg : decode 0b00000000000000000000000000110101 = .ok (.metaGrid true true) := by decide
theorem test_decode_flag_on_meta : decode 0x00000024 = .error .flagNotAllowed := by decide
theorem test_decode_op_15 : decode 0x0000000F = .error .reservedOp := by decide
theorem test_decode_bit_6 : decode 0x00000045 = .error .reservedBits := by decide
theorem test_decode_table_word : decodeTableWord 32 0x35 = some (.metaGrid true true) := by decide
theorem test_mnemonic : (Instr.metaGrid true true).mnemonic = "METAGRID.S.G" := by decide

/-! ## States -/

/-- `grey(n)` of 95_test_vectors.md. -/
def grey (n : Nat) : Word := BitVec.ofNat 32 (0x11111100 * n + 0xFF)

/-- The palette of greys. -/
def greys : Words := (List.range 16).map fun n => (n, grey n)

/-- The palette of program P2: PAL[0] transparent, PAL[1] half transparent. -/
def glass : Words := [(0, 0x00000000), (1, 0xFF000080), (2, 0x00FF00FF)] ++ greys.drop 3

/-- The command word `w` accepted and running, the table built, 16 palette entries counted. -/
def running (w : Word) (off cnt len : Nat) (rom : Memory) (pal : Words) : State :=
  { State.reset with
    params := Params.reference
    cmd := w
    status := ⟨true, false, false, 0, true, false, false⟩
    offset := BitVec.ofNat 32 off
    count := BitVec.ofNat 16 cnt
    romLen := BitVec.ofNat 32 len
    palCnt := 16
    latch := ⟨w, BitVec.ofNat 32 off, BitVec.ofNat 16 cnt, BitVec.ofNat 32 len, 16⟩
    pal := pal
    tbl := builtTable
    rom := rom }

/-- The same state with no command running. -/
def idle (s : State) : State := { s with status := { s.status with busy := false } }

/-- The ROM of program P1. -/
def romP1 : Memory := [(0, 0x12), (1, 0x34), (16, 0x5F), (511, 0xAB)]

/-- The ROM of program P2. -/
def romP2 : Memory := [(0, 0x02), (0x2000, 0x11), (0x2001, 0x20)]

/-- The ROM of program P3. -/
def romP3 : Memory :=
  [(0x103, 1), (0x105, 2), (0x107, 3), (0x109, 4), (0x10B, 5), (0x10D, 6), (0x10E, 0xFF), (0x10F, 7)] ++
  (List.range 8).map fun n => (0x12EF26 + 512 * n, BitVec.ofNat 8 (0x11 * (n + 1)))

/-- The ROM of program P4. -/
def romP4 : Memory := Memory.write romP3 0x11B 0xFF

/-- A RENDER of program P1's tile. -/
def sRender : State := running 2 0 1 0x200 romP1 greys
/-- A COMPOSE of program P2's 17 tiles. -/
def sCompose : State := running 3 0 17 0x2200 romP2 glass
/-- Any command over program P3's ROM, one unit. -/
def sMeta (w : Word) : State := running w 0x100 1 0x12FF26 romP3 greys
/-- A METAGRID of 17 meta-tiles. -/
def sMetaGrid : State := running 5 0x100 17 0x12FF26 romP3 glass
/-- Every command's checks pass and no palette entry has been written. -/
def sNoColour : State := running 2 0 1 0x12F126 [] []

/-- A test of the next state. -/
def after (o : Host.Outcome State Fault Refusal) (p : State → Bool) : Bool :=
  match o with
  | .next t => p t
  | .fault _ => false
  | .refused _ => false

/-! ## Vectors of 95_test_vectors.md -/

theorem test_build_table :
    after (exec .build State.reset) (fun t => tblEntry t 2 == 64 && tblEntry t 31 == 961 && tblEntry t 543 == 993) =
      true := by decide +kernel

theorem test_build_first_command :
    after (step (State.reset.withFetchWord 32 1)) (fun t => t.status.word == 0x00000102) = true := by decide +kernel

/-- Program P1, nine words of it. -/
theorem test_render_p1 :
    [0, 1, 32, 33, 512, 513, 1022, 1023, 2].map (decodeTile sRender 0) =
      [1, 2, 3, 4, 5, 15, 10, 11, 0].map (fun n => .ok (grey n)) := by decide +kernel

/-- Program P1b. -/
theorem test_render_p1b :
    after (step (running 2 1 1 0x200 romP1 greys)) (fun t => t.status.word == 0x00000136 && t.errAddr == 1 &&
      t.errInfo == 0 && t.canvas == []) = true := by decide +kernel

/-- Program P2, three words of it. -/
theorem test_compose_p2 :
    [1, 16384, 16896, 16416].map (composeImage sCompose 0) =
      [.ok 0x00FF00FF, .ok 0x80000040, .ok 0x00FF00FF, .ok 0] := by decide +kernel

/-- V-C, third row. -/
theorem test_compose_first_tile_out_of_range :
    after (step (running 3 0 17 0x21FF romP2 glass)) (fun t => t.status.word == 0x00000136 && t.errAddr == 0x2000 &&
      t.errInfo == 0x10) = true := by decide +kernel

/-- Program P3, three words of it. -/
theorem test_meta_p3 :
    [4096, 33, 4192].map (metaImage (sMeta 4) (grey 0) 0x100 false) =
      [.ok (grey 2), .ok (grey 3), .ok (grey 8)] := by decide +kernel

/-- V-MG, first row. -/
theorem test_meta_sub_tile_out_of_range :
    after (step (running 4 0x100 0 0x10A [] greys)) (fun t => t.status.word == 0x00000136 && t.errAddr == 0x12EF26 &&
      t.errInfo == 0) = true := by decide +kernel

/-- Program P4. -/
theorem test_metagrid_p4 :
    after (step (running 5 0x100 2 0x12FF26 romP4 greys)) (fun t => t.status.word == 0x00000136 &&
      t.errAddr == 0x0014ED26 && t.errInfo == 0x00050001) = true := by decide +kernel

/-- Program P5: one word under each of the four flag settings. -/
theorem test_metagrid_p5 :
    [(true, true), (true, false), (false, true), (false, false)].map
        (fun f => metaGridImage (running 5 0x100 2 0x12FF26 romP3 glass) 0 f.1 f.2 0) =
      [.ok 0x20000010, .ok 0x80000040, .ok 0x80000040, .ok 0xFF000080] := by decide +kernel

/-- V-B. -/
theorem test_blend :
    blend 0x00000000 0xFF000080 = 0x80000040 ∧ blend 0x102030FF 0xFFFFFF00 = 0x102030FF ∧
    blend 0x000000FF 0xFFFFFF80 = 0x808080BF ∧ blend 0xFFFFFFFF 0x00000001 = 0xFEFEFEFE ∧
    blend 0x12345678 0x9ABCDEF0 = 0x92B4D6E9 := by decide

/-- V-X, step 5, and V-L, its row of 65535. -/
theorem test_canvas_overflow :
    after (step (running 3 0x40 65535 16 [] greys)) (fun t => t.status.word == 0x00000176 && t.errAddr == 0x40) =
      true := by decide +kernel

/-- V-R: what the argument registers store. -/
theorem test_host_writes :
    after (hostWrite (.reg 0x014) 300 State.reset) (fun t => t.palCnt == 256) = true ∧
    after (hostWrite (.reg 0x00C) 0x00012345 State.reset) (fun t => t.count == 0x2345) = true := by decide +kernel

/-- V-R, the race: both outcomes are admitted. -/
theorem test_host_race :
    after (step { sRender with schedule := [.hostWrite (.reg 8) 5] })
      (fun t => t.offset == 0 && t.status.wlost) = true ∧
    after (step { idle sRender with schedule := [.hostWrite (.reg 8) 5] })
      (fun t => t.offset == 5 && !t.status.wlost) = true := by decide +kernel

/-- CLRDONE of program P5. -/
theorem test_host_acknowledge :
    (Line.clrdone).turns = [.hostWrite (.reg 4) 2] ∧
    (Status.writeOneClear 2 ⟨false, true, true, 3, true, false, false⟩).word = 0x00000100 := by decide

/-! ## Witnesses: states that meet the hypotheses of the statements -/

theorem greys_read (n : BitVec 4) : Words.read greys n.toNat = some (grey n.toNat) := by revert n; decide +kernel

theorem greys_ready {s : State} (h : s.pal = greys) : s.palReady := by
  intro n hn
  rw [h]; exact Option.isSome_iff_exists.mpr ⟨_, greys_read (BitVec.ofNat 4 n) |> (by simpa [Nat.mod_eq_of_lt hn] using ·)⟩

theorem greys_held {s : State} (h : s.pal = greys) (off : Nat) : coloursHeld s (fun n => grey n.toNat) off := by
  intro i _; rw [h]; exact greys_read _

/-- The colours of `glass`. -/
def glassColour (n : BitVec 4) : Word := (Words.read glass n.toNat).getD 0

theorem glass_held {s : State} (h : s.pal = glass) (off : Nat) : coloursHeld s glassColour off := by
  have key : ∀ n : BitVec 4, Words.read glass n.toNat = some (glassColour n) := by decide +kernel
  intro i _; rw [h]; exact key _

theorem running_inv {w : Word} {off cnt len : Nat} {rom : Memory} {pal : Words}
    (hl : (BitVec.ofNat 32 len).toNat ≤ Params.reference.romCap)
    (hr : Memory.wf Params.reference.romCap rom) (hp : Words.wf palCap pal) : (running w off cnt len rom pal).Inv where
  params_legal := by show Params.reference.legal; decide
  rom_wf := hr
  pal_wf := hp
  canvas_wf := Words.wf_nil _
  romLen_le := hl
  palCnt_le := by show (16#9).toNat ≤ palCap; decide
  latch_eq := fun _ => rfl
  busy_clear := fun _ => ⟨rfl, rfl, rfl, rfl⟩
  err_iff := ⟨(by intro h; cases h), fun h => absurd rfl h⟩
  err_done := by intro h; cases h
  errCode_produced := ⟨Nat.zero_le _, by show (0#4) ≠ 4#4; decide⟩
  table_built := fun _ => rfl
  image_held := by intro h; cases h
  reset_idle := by intro h; cases h

theorem sRender_inv : sRender.Inv := running_inv (by decide) (by decide) (by decide +kernel)

/-- A RENDER all of whose checks and colours are there completes. -/
theorem render_next {s : State} {px : Nat → Word} (h1 : checkPreconditions s = .ok ())
    (h2 : checkRange s s.argOff tileBytes (tileInfo 0 0) = .ok ())
    (h3 : checkNibbles s s.argOff (tileInfo 0 0) = .ok ()) (hcap : 1024 ≤ s.params.canvasCap)
    (hpx : ∀ i, decodeTile s s.argOff i = .ok (px i)) :
    ∃ t, exec .render s = .next t ∧ t.status = s.status.imageValid.succeed := by
  have h4 := storeImage_of_colours (W := tileSide) (H := tileSide) (s := s) px hcap fun i _ => hpx i
  have h5 : renderWrites s = storeImage tileSide tileSide (decodeTile s s.argOff) s := by
    simp only [renderWrites, h1, h2, h3, perf_ok_bind]
  exact ⟨_, congrArg (completeCommand s) (h5.trans h4), rfl⟩

/-- RENDER of program P1 completes. -/
theorem sRender_next : ∃ t, exec .render sRender = .next t ∧ t.status.word = 0x00000302 ∧ t.status.err = false := by
  obtain ⟨t, h, ht⟩ := render_next (s := sRender)
    (px := fun i => grey (pixelNibble sRender sRender.argOff i).toNat)
    (checkPreconditions_ok.mpr ⟨by decide, by decide, rfl⟩) (checkRange_ok.mpr (by decide))
    (checkNibbles_of_tile (by decide) (by decide)) (by decide) fun i => by
      rw [decodeTile_of_tile (by decide)]
      exact palColour_of_read (greys_read _)
  exact ⟨t, h, by rw [ht]; decide, by rw [ht]; decide⟩

theorem sRender_step : step sRender = exec .render sRender := by
  have h : ∀ s : State, s.schedule = [] → s.status.busy = true → s.latch.w = 2 → step s = exec .render s := by
    rintro ⟨⟩ rfl hb hw
    simp only [step, State.nextTurn, State.popTurn, List.headD_nil, List.tail_nil, takeTurn, engineTurn, perform] at *
    simp only [hb, hw, if_true]; rfl
  exact h _ rfl rfl rfl

theorem witness_StepRunsTheLatchedCommand :
    sRender.nextTurn = .engine ∧ sRender.status.busy = true ∧ decode sRender.latch.w = .ok .render := by decide

theorem witness_StepRunsTheLatchedCommand_badWord :
    let s := running 0x13 0 1 16 [] greys
    s.nextTurn = .engine ∧ s.status.busy = true ∧ ¬ validWord s.latch.w := by
  unfold validWord; decide

theorem witness_StepTakesTheTurnsOfTheOtherAgents :
    let next (t : Turn) : State := { sRender with schedule := [t, .engine] }
    sRender.schedule = [] ∧ (next (.hostRead (.reg 4))).nextTurn = .hostRead (.reg 4) ∧
    (next (.hostWrite (.reg 8) 5)).nextTurn = .hostWrite (.reg 8) 5 ∧ (next (.romSet 3 7)).nextTurn = .romSet 3 7 ∧
    (next .resetRelease).nextTurn = .resetRelease := ⟨rfl, rfl, rfl, rfl, rfl⟩

theorem witness_IdleEngineWaits : State.reset.nextTurn = .engine ∧ State.reset.status.busy = false := ⟨rfl, rfl⟩

theorem witness_BuildWritesTheDeinterleaveTable : 31 < 32 ∧ builtTable[512 * (31 % 2) + 31 % 2 + 32 * (31 / 2) +
    2 * (31 / 2)]? = some (BitVec.ofNat 10 (31 + 32 * 31)) := by decide +kernel

/-- A ROM of 512 bytes 0x11. -/
def romOnes : Memory := (List.range' 0 512).map fun n => (n, 0x11)

theorem lookup_same (b : Byte) (n lo a : Nat) :
    ((List.range' lo n).map fun k => (k, b)).lookup a = if lo ≤ a ∧ a < lo + n then some b else none := by
  induction n generalizing lo with
  | zero => simp
  | succ n ih =>
    simp only [List.range'_succ, List.map_cons, List.lookup_cons, ih]
    by_cases h : a = lo
    · subst h; simp
    · have h' : (a == lo) = false := by simpa using h
      simp only [h']
      congr 1
      exact propext (by omega)

theorem zero_nibble {s : State} (h : s.rom = []) (j : BitVec 10) : romNibble s 0 j = 0 := by
  unfold romNibble
  rw [h, Memory.read_nil]; split <;> rfl

theorem ones_nibble {s : State} (h : s.rom = romOnes) (j : BitVec 10) : romNibble s 0 j = 1 := by
  have hr : Memory.read romOnes (0 + j.toNat / 2) = 0x11 := by
    have := j.isLt
    unfold Memory.read romOnes
    rw [lookup_same, if_pos (by omega)]; rfl
  unfold romNibble
  rw [h, hr]; split <;> rfl

/-- First clause: 512 bytes of zeros. -/
theorem witness_DecodingIsLossless_zeros :
    0 + 512 ≤ sNoColour.params.romCap ∧ (∀ b, b < 512 → Memory.read sNoColour.rom (0 + b) = 0) ∧
    sNoColour.tbl = builtTable := ⟨by decide, fun _ _ => rfl, rfl⟩

/-- Third clause: 16 distinct colours, and two tiles that show the same colours. -/
theorem witness_DecodingIsLossless_distinct :
    let s := running 2 0 1 1024 [] greys
    s.tbl = builtTable ∧ 0 + 512 ≤ s.params.romCap ∧ 512 + 512 ≤ s.params.romCap ∧
    (∀ n : BitVec 4, Words.read s.pal n.toNat = some (grey n.toNat)) ∧
    (∀ m n : BitVec 4, grey m.toNat = grey n.toNat → m = n) ∧
    ∀ i, i < 1024 → decodeTile s 0 i = decodeTile s 512 i := by
  refine ⟨rfl, by decide, by decide, greys_read, by decide +kernel, fun i _ => ?_⟩
  rw [decodeTile_of_tile (by decide), decodeTile_of_tile (by decide)]
  rfl

/-- Last clause: two palette entries of one colour, one tile of each. -/
theorem witness_DecodingIsLossless_alike :
    let pal : Words := [(0, 7), (1, 7)]
    let s := running 2 0 1 512 [] pal
    let s' := running 2 0 1 512 romOnes pal
    s'.pal = s.pal ∧ s'.params = s.params ∧ 0 + 512 ≤ s.params.romCap ∧
    Words.read s.pal (0#4).toNat = Words.read s.pal (1#4).toNat ∧ (∀ j, romNibble s 0 j = 0) ∧
    ∀ j, romNibble s' 0 j = 1 := by
  exact ⟨rfl, rfl, by decide, by decide, zero_nibble rfl, ones_nibble rfl⟩

theorem witness_TableIsAPermutationWithTheStatedInverse : sNoColour.tbl = builtTable := rfl

theorem witness_BlendRoundsToTheNearest :
    255 ≤ 255 ∧ (0x123456FF : Word).extractLsb' 0 8 = 255#8 ∧ (0x12345600 : Word).extractLsb' 0 8 = 0#8 := by decide

theorem witness_PlacementWritesExactlyItsRectangle :
    2 + 2 ≤ 4 ∧ (1 < 2 ∧ 1 < 2 ∧ filled 5 (1 * 2 + 1) = .ok 5 ∧ filled 9 ((3 + 1) * 4 + (2 + 1)) = .ok 9) ∧
    ∀ tx ty, tx < 2 → ty < 2 → 12 ≠ (3 + ty) * 4 + (2 + tx) := ⟨by decide, by decide, by omega⟩

theorem witness_GridCellsAreDisjointAndInside :
    1 ≤ 1 ∧ 1 ≤ 17 ∧ 16 < 17 ∧ cellX 32 17 16 ≤ 31 ∧ 31 < cellX 32 17 16 + 32 ∧ cellY 32 17 16 ≤ 63 ∧
    63 < cellY 32 17 16 + 32 := by decide

theorem witness_SubTilesTileTheMetaTile : 127 < 128 ∧ 63 < 64 ∧ 7 < 8 := by decide

theorem witness_RenderWritesTheDecodedTile :
    decodeReady sRender ∧ lenLegal sRender ∧ 1024 ≤ sRender.params.canvasCap ∧ offOf sRender + 512 ≤ lenOf sRender ∧
    coloursHeld sRender (fun n => grey n.toNat) (offOf sRender) :=
  ⟨⟨by decide, by decide, rfl⟩, by unfold lenLegal; decide, by decide, by decide, greys_held rfl _⟩

theorem witness_ComposePlacesEveryTileMasked :
    decodeReady sCompose ∧ lenLegal sCompose ∧ cntOf sCompose ≠ 0 ∧
    32 * colsOf (cntOf sCompose) * (32 * rowsOf (cntOf sCompose)) ≤ sCompose.params.canvasCap ∧
    (∀ k, k < cntOf sCompose → offOf sCompose + 512 * k + 512 ≤ lenOf sCompose) ∧
    Words.read sCompose.pal 0 = some 0 ∧
    (∀ k, k < cntOf sCompose → coloursHeld sCompose glassColour (offOf sCompose + 512 * k)) ∧
    cntOf sCompose ≤ (32 / 32) * colsOf (cntOf sCompose) + 32 / 32 :=
  ⟨⟨by decide, by decide, rfl⟩, by unfold lenLegal; decide, by decide, by decide, by decide, by decide,
    fun _ _ => glass_held rfl _, by decide⟩

theorem sMeta_ranges (w : Word) : ∀ k, k < 8 → subInRange (sMeta w) (offOf (sMeta w)) k := by
  show ∀ k, k < 8 → 0x100 + 2 * k + 2 ≤ 0x12FF26 ∧
    0x12EF26 + 512 * (Memory.read romP3 (0x100 + 2 * k + 1)).toNat + 512 ≤ 0x12FF26
  decide +kernel

theorem witness_MetaAssemblesEightSubTiles :
    decodeReady (sMeta 4) ∧ lenLegal (sMeta 4) ∧ 8192 ≤ (sMeta 4).params.canvasCap ∧
    (∀ k, k < 8 → subInRange (sMeta 4) (offOf (sMeta 4)) k) ∧ Words.read (sMeta 4).pal 0 = some (grey 0) ∧
    ∀ k, k < 8 → coloursHeld (sMeta 4) (fun n => grey n.toNat) (wallTile (sMeta 4) (offOf (sMeta 4)) k) :=
  ⟨⟨by decide, by decide, rfl⟩, by unfold lenLegal; decide, by decide, sMeta_ranges 4, by decide,
    fun _ _ => greys_held rfl _⟩

theorem witness_MetaGridPlacesEveryMetaTile :
    decodeReady sMetaGrid ∧ lenLegal sMetaGrid ∧ cntOf sMetaGrid ≠ 0 ∧
    128 * colsOf (cntOf sMetaGrid) * (64 * rowsOf (cntOf sMetaGrid)) ≤ sMetaGrid.params.canvasCap ∧
    (∀ m k, m < cntOf sMetaGrid → k < 8 → subInRange sMetaGrid (offOf sMetaGrid + 16 * m) k) ∧
    Words.read sMetaGrid.pal 0 = some 0 ∧
    (∀ m k, m < cntOf sMetaGrid → k < 8 →
      coloursHeld sMetaGrid glassColour (wallTile sMetaGrid (offOf sMetaGrid + 16 * m) k)) ∧
    cntOf sMetaGrid ≤ (64 / 64) * colsOf (cntOf sMetaGrid) + 128 / 128 := by
  refine ⟨⟨by decide, by decide, rfl⟩, by unfold lenLegal; decide, by decide, by decide, ?_, by decide,
    fun _ _ _ _ => glass_held rfl _, by decide⟩
  have key : ∀ m : Fin 17, ∀ k : Fin 8, 0x100 + 16 * m.val + 2 * k.val + 2 ≤ 0x12FF26 ∧
      0x12EF26 + 512 * (Memory.read romP3 (0x100 + 16 * m.val + 2 * k.val + 1)).toNat + 512 ≤ 0x12FF26 := by
    decide +kernel
  exact fun m k hm hk => key ⟨m, hm⟩ ⟨k, hk⟩

theorem witness_RenderFaultsOnAnUnwrittenColour :
    decodeReady sNoColour ∧ lenLegal sNoColour ∧ offOf sNoColour + 512 ≤ lenOf sNoColour ∧ 1023 < 1024 ∧
    Words.read sNoColour.pal (pixelNibble sNoColour (offOf sNoColour) 1023).toNat = none :=
  ⟨⟨by decide, by decide, rfl⟩, by unfold lenLegal; decide, by decide, by decide, rfl⟩

theorem witness_CompositesFaultOnAnUnwrittenBackdrop :
    decodeReady sNoColour ∧ lenLegal sNoColour ∧ Words.read sNoColour.pal 0 = none ∧ cntOf sNoColour ≠ 0 ∧
    128 * colsOf (cntOf sNoColour) * (64 * rowsOf (cntOf sNoColour)) ≤ sNoColour.params.canvasCap ∧
    (∀ k, k < cntOf sNoColour → offOf sNoColour + 512 * k + 512 ≤ lenOf sNoColour) ∧
    (∀ m k, m < cntOf sNoColour → k < 8 → subInRange sNoColour (offOf sNoColour + 16 * m) k) ∧
    ∀ k, k < 8 → subInRange sNoColour (offOf sNoColour) k := by
  refine ⟨⟨by decide, by decide, rfl⟩, by unfold lenLegal; decide, rfl, by decide, by decide, by decide, ?_, ?_⟩
  · intro m k hm hk
    have hm' : m < 1 := hm
    show 0 + 16 * m + 2 * k + 2 ≤ 0x12F126 ∧ 0x12EF26 + 512 * 0 + 512 ≤ 0x12F126
    omega
  · intro k hk
    show 0 + 2 * k + 2 ≤ 0x12F126 ∧ 0x12EF26 + 512 * 0 + 512 ≤ 0x12F126
    omega

/-- COMPOSE: program P2 with no entry but the backdrop written; its second word shows entry 2. -/
theorem witness_CompositesFaultOnAnUnwrittenColour_compose :
    let s := running 3 0 17 0x2200 romP2 [(0, 0)]
    decodeReady s ∧ lenLegal s ∧ 1 < 1024 ∧ 0 < cntOf s ∧
    32 * colsOf (cntOf s) * (32 * rowsOf (cntOf s)) ≤ s.params.canvasCap ∧
    (∀ j, j < cntOf s → offOf s + 512 * j + 512 ≤ lenOf s) ∧ Words.read s.pal 0 = some 0 ∧
    Words.read s.pal (pixelNibble s (offOf s + 512 * 0) 1).toNat = none :=
  ⟨⟨by decide, by decide, rfl⟩, by unfold lenLegal; decide, by decide, by decide, by decide, by decide, rfl,
    by decide +kernel⟩

/-- META and METAGRID: the last sub-tile of program P3 with no entry but the backdrop written; its first word shows
entry 8. -/
theorem witness_CompositesFaultOnAnUnwrittenColour_meta :
    let s := running 5 0x100 1 0x12FF26 romP3 [(0, 0)]
    decodeReady s ∧ lenLegal s ∧ 0 < cntOf s ∧ 7 < 8 ∧
    128 * colsOf (cntOf s) * (64 * rowsOf (cntOf s)) ≤ s.params.canvasCap ∧
    (∀ j, j < 8 → subInRange s (offOf s) j) ∧
    (∀ l j, l < cntOf s → j < 8 → subInRange s (offOf s + 16 * l) j) ∧ Words.read s.pal 0 = some 0 ∧
    Words.read s.pal (pixelNibble s (wallTile s (offOf s) 7) 0).toNat = none ∧
    Words.read s.pal (pixelNibble s (wallTile s (offOf s + 16 * 0) 7) 0).toNat = none := by
  refine ⟨⟨by decide, by decide, rfl⟩, by unfold lenLegal; decide, by decide, by decide, by decide, sMeta_ranges 5,
    fun l j hl hj => ?_, rfl, by decide +kernel, by decide +kernel⟩
  obtain rfl : l = 0 := Nat.lt_one_iff.mp hl
  exact sMeta_ranges 5 j hj

/-- The last clause too: every colour shown is opaque. -/
theorem witness_ComposeOfOneIsRenderBlended :
    decodeReady sRender ∧ lenLegal sRender ∧ 1024 ≤ sRender.params.canvasCap ∧ cntOf sRender = 1 ∧
    offOf sRender + 512 ≤ lenOf sRender ∧ Words.read sRender.pal 0 = some (grey 0) ∧
    coloursHeld sRender (fun n => grey n.toNat) (offOf sRender) ∧
    ∀ i, i < 1024 → (grey (pixelNibble sRender (offOf sRender) i).toNat).extractLsb' 0 8 = 255#8 := by
  have key : ∀ n : BitVec 4, (grey n.toNat).extractLsb' 0 8 = 255#8 := by decide +kernel
  exact ⟨⟨by decide, by decide, rfl⟩, by unfold lenLegal; decide, by decide, by decide, by decide, by decide,
    greys_held rfl _, fun _ _ => key _⟩

theorem witness_MetaGridOfOneIsMeta : cntOf (sMeta 5) = 1 ∧ 8192 ≤ (sMeta 5).params.canvasCap := by decide

theorem witness_InputMissingIsReported : lenOf State.reset = 0 ∧ Instr.render ≠ .build := by decide

theorem witness_PaletteTooSmallIsReported :
    let s := { sRender with latch := { sRender.latch with palCnt := 15 } }
    Instr.compose ≠ .build ∧ lenOf s ≠ 0 ∧ s.latch.palCnt.toNat < 16 := by decide

theorem witness_TableNotBuiltIsReported :
    let s := { sRender with status := { sRender.status with tblv := false } }
    Instr.metaTile true ≠ .build ∧ lenOf s ≠ 0 ∧ 16 ≤ s.latch.palCnt.toNat ∧ s.status.tblv = false := by decide

theorem witness_CountZeroIsReported :
    decodeReady (running 3 0 0 16 [] greys) ∧ cntOf (running 3 0 0 16 [] greys) = 0 :=
  ⟨⟨by decide, by decide, rfl⟩, by decide⟩

/-- The smallest counts that overflow the reference canvas. -/
theorem witness_CanvasOverflowIsReported :
    let s := running 3 0 2049 16 [] greys
    let s' := running 5 0 257 16 [] greys
    decodeReady s ∧ cntOf s ≠ 0 ∧ s.params.canvasCap < 32 * colsOf (cntOf s) * (32 * rowsOf (cntOf s)) ∧
    decodeReady s' ∧ cntOf s' ≠ 0 ∧ s'.params.canvasCap < 128 * colsOf (cntOf s') * (64 * rowsOf (cntOf s')) :=
  ⟨⟨by decide, by decide, rfl⟩, by decide, by decide, ⟨by decide, by decide, rfl⟩, by decide, by decide⟩

theorem witness_CanvasOverflowIsReported_render :
    sRender.status.errCode ≠ 7 ∧ ∃ t, exec .render sRender = .next t := by
  obtain ⟨t, h, -⟩ := sRender_next
  exact ⟨by decide, t, h⟩

theorem witness_BadCommandIsReported : ¬ validWord (running 0x13 0 1 16 [] greys).latch.w := by
  unfold validWord; decide

theorem witness_FirstTileOutOfRangeIsReported :
    let s := running 2 0 17 511 [] greys
    let s' := running 3 0 17 0x21FF romP2 glass
    decodeReady s ∧ lenOf s < offOf s + 512 ∧ decodeReady s' ∧ 16 < cntOf s' ∧
    32 * colsOf (cntOf s') * (32 * rowsOf (cntOf s')) ≤ s'.params.canvasCap ∧
    (∀ j, j < 16 → offOf s' + 512 * j + 512 ≤ lenOf s') ∧ lenOf s' < offOf s' + 512 * 16 + 512 :=
  ⟨⟨by decide, by decide, rfl⟩, by decide, ⟨by decide, by decide, rfl⟩, by decide, by decide, by decide, by decide⟩

/-- The last field of a descriptor that ends one byte beyond ROMLEN. -/
theorem witness_FirstMetaRangeOutOfRangeIsReported_field :
    let s := running 4 (0x12F126 - 15) 0 0x12F126 [] greys
    decodeReady s ∧ lenLegal s ∧ 7 < 8 ∧ (∀ j, j < 7 → subInRange s (offOf s) j) ∧ lenOf s < offOf s + 2 * 7 + 2 := by
  refine ⟨⟨by decide, by decide, rfl⟩, by unfold lenLegal; decide, by decide, fun j hj => ?_, by decide⟩
  show 0x12F117 + 2 * j + 2 ≤ 0x12F126 ∧ 0x12EF26 + 512 * 0 + 512 ≤ 0x12F126
  omega

/-- The last sub-tile, one byte short. -/
theorem witness_FirstMetaRangeOutOfRangeIsReported_subTile :
    let s := running 4 0x100 0 0x12FF25 romP3 greys
    decodeReady s ∧ lenLegal s ∧ 7 < 8 ∧ (∀ j, j < 7 → subInRange s (offOf s) j) ∧ offOf s + 2 * 7 + 2 ≤ lenOf s ∧
    lenOf s < wallTile s (offOf s) 7 + 512 := by
  refine ⟨⟨by decide, by decide, rfl⟩, by unfold lenLegal; decide, by decide, ?_, by decide, ?_⟩
  · show ∀ k, k < 7 → 0x100 + 2 * k + 2 ≤ 0x12FF25 ∧
      0x12EF26 + 512 * (Memory.read romP3 (0x100 + 2 * k + 1)).toNat + 512 ≤ 0x12FF25
    decide +kernel
  · show 0x12FF25 < 0x12EF26 + 512 * (Memory.read romP3 (0x100 + 2 * 7 + 1)).toNat + 512
    decide +kernel

/-- The last field of the second descriptor, one byte short. -/
theorem witness_FirstMetaGridRangeOutOfRangeIsReported_field :
    let s := running 5 (0x12F126 - 31) 2 0x12F126 [] greys
    decodeReady s ∧ lenLegal s ∧ 1 < cntOf s ∧ 7 < 8 ∧
    128 * colsOf (cntOf s) * (64 * rowsOf (cntOf s)) ≤ s.params.canvasCap ∧
    (∀ l j, l < 1 → j < 8 → subInRange s (offOf s + 16 * l) j) ∧ (∀ j, j < 7 → subInRange s (offOf s + 16 * 1) j) ∧
    lenOf s < offOf s + 16 * 1 + 2 * 7 + 2 := by
  refine ⟨⟨by decide, by decide, rfl⟩, by unfold lenLegal; decide, by decide, by decide, by decide, fun l j hl hj => ?_,
    fun j hj => ?_, by decide⟩
  · show 0x12F107 + 16 * l + 2 * j + 2 ≤ 0x12F126 ∧ 0x12EF26 + 512 * 0 + 512 ≤ 0x12F126
    omega
  · show 0x12F107 + 16 * 1 + 2 * j + 2 ≤ 0x12F126 ∧ 0x12EF26 + 512 * 0 + 512 ≤ 0x12F126
    omega

/-- Program P4. -/
theorem witness_FirstMetaGridRangeOutOfRangeIsReported_subTile :
    let s := running 5 0x100 2 0x12FF26 romP4 greys
    decodeReady s ∧ lenLegal s ∧ 1 < cntOf s ∧ 5 < 8 ∧
    128 * colsOf (cntOf s) * (64 * rowsOf (cntOf s)) ≤ s.params.canvasCap ∧
    (∀ l j, l < 1 → j < 8 → subInRange s (offOf s + 16 * l) j) ∧ (∀ j, j < 5 → subInRange s (offOf s + 16 * 1) j) ∧
    offOf s + 16 * 1 + 2 * 5 + 2 ≤ lenOf s ∧ lenOf s < wallTile s (offOf s + 16 * 1) 5 + 512 := by
  have key : ∀ m : Fin 2, ∀ k : Fin 8, m.val * 8 + k.val < 13 → 0x100 + 16 * m.val + 2 * k.val + 2 ≤ 0x12FF26 ∧
      0x12EF26 + 512 * (Memory.read romP4 (0x100 + 16 * m.val + 2 * k.val + 1)).toNat + 512 ≤ 0x12FF26 := by
    decide +kernel
  refine ⟨⟨by decide, by decide, rfl⟩, by unfold lenLegal; decide, by decide, by decide, by decide,
    fun l j hl hj => key ⟨l, by omega⟩ ⟨j, hj⟩ (by show l * 8 + j < 13; omega),
    fun j hj => key 1 ⟨j, by omega⟩ (by show 1 * 8 + j < 13; omega), by decide, ?_⟩
  show 0x12FF26 < 0x12EF26 + 512 * (Memory.read romP4 (0x100 + 16 * 1 + 2 * 5 + 1)).toNat + 512
  decide +kernel

/-- Each kind of end: a table, an image, an error. -/
theorem witness_CommandsChangeOnlyTheirResults :
    (∃ t, exec .build sRender = .next t) ∧ (∃ t, exec .render sRender = .next t ∧ t.status.err = false) ∧
    ∃ t, exec .compose State.reset = .next t ∧ t.status.err = true := by
  obtain ⟨t, h, -, ht⟩ := sRender_next
  exact ⟨⟨_, rfl⟩, ⟨t, h, ht⟩, ⟨_, rfl, rfl⟩⟩

/-- The four decoding commands fail at reset, and so does a word that is no command. -/
theorem witness_EachCommandReportsOnlyItsCodes :
    let t := failedWith State.reset 1 0 0
    State.reset.status.err = false ∧ t.status.err = true ∧ exec .render State.reset = .next t ∧
    exec .compose State.reset = .next t ∧ exec (.metaTile true) State.reset = .next t ∧
    exec (.metaGrid true false) State.reset = .next t ∧ decode State.reset.latch.w = .error .reservedOp ∧
    perform State.reset = .next (failedWith State.reset 8 0 0) := ⟨rfl, rfl, rfl, rfl, rfl, rfl, by decide, rfl⟩

theorem render_range_error {s : State} (h1 : checkPreconditions s = .ok ()) (h2 : s.argLen < s.argOff + 512) :
    renderWrites s = .error (.raised ⟨.outOfRange, s.argOff, tileInfo 0 0⟩) := by
  have h3 : checkRange s s.argOff tileBytes (tileInfo 0 0) = _ := checkRange_error.mpr ⟨h2, rfl⟩
  simp only [renderWrites, h1, h3, perf_ok_bind, perf_error_bind]

/-- Each kind of command fails at reset; the range error of program P1b. -/
theorem witness_ErrorAddressesFit :
    let e : CmdError := ⟨.inputMissing, 0, 0⟩
    renderWrites State.reset = .error (.raised e) ∧ composeWrites State.reset = .error (.raised e) ∧
    metaTileWrites true State.reset = .error (.raised e) ∧
    metaGridWrites true true State.reset = .error (.raised e) ∧ e.code ≠ .outOfRange ∧
    ∃ e, renderWrites (running 2 1 1 0x200 romP1 greys) = .error (.raised e) ∧ e.code = .outOfRange :=
  ⟨rfl, rfl, rfl, rfl, by decide, _,
    render_range_error (checkPreconditions_ok.mpr ⟨by decide, by decide, rfl⟩) (by decide), rfl⟩

theorem witness_CmdWriteIsAcceptance :
    sRender.inReset = false ∧ 3 < 4 ∧ sRender.status.busy = true ∧ State.reset.inReset = false ∧
    State.reset.status.busy = false ∧ (validWord 5 ∧ 2 ≤ ((5 : Word).extractLsb' 0 4).toNat) ∧
    ¬ (validWord 1 ∧ 2 ≤ ((1 : Word).extractLsb' 0 4).toNat) ∧ ¬ validWord 0x12 := by
  unfold validWord; decide

theorem witness_WritesWhileBusyAreDropped : sRender.inReset = false ∧ sRender.status.busy = true ∧
    (0x03 < 0x04 ∧ 0x08 ≤ 0x17 ∧ 0x17 < 0x18 ∧ 0x2000 ≤ 0x23FF ∧ 0x23FF < 0x2400) ∧ 0x04 ≤ 0x07 ∧ 0x07 < 0x08 := by
  decide

theorem witness_ArgumentWritesAreStored :
    (idle sRender).inReset = false ∧ (idle sRender).status.busy = false ∧ 3 < 4 ∧ 255 < 256 := by decide

theorem witness_StatusWriteAcknowledges :
    (idle sRender).inReset = false ∧ (idle sRender).status.busy = false ∧ 3 < 4 := by decide

theorem witness_HostReadsTheRegisters : sRender.inReset = false ∧ 3 < 4 := by decide

theorem witness_TableWindowReadsTheTable : sRender.inReset = false ∧ 3 < 4 := by decide

theorem witness_PaletteWindowReadsTheEntry :
    sRender.inReset = false ∧ 3 < 4 ∧ 15 < 256 ∧ Words.read sRender.pal 15 = some (grey 15) ∧ 255 < 256 ∧
    Words.read sRender.pal 255 = none := by decide +kernel

theorem witness_ReservedAndReadOnlyWordsIgnoreWrites : sRender.inReset = false ∧ (0x028 ≤ 0xFFF ∧ 0xFFF < 0x1000) ∧
    (0x2400 ≤ 0x3FFF ∧ 0x3FFF < 0x4000) ∧ (0x018 ≤ 0x027 ∧ 0x027 < 0x028) ∧ 0x1000 ≤ 0x1FFF ∧ 0x1FFF < 0x2000 := by
  decide

theorem witness_OutReadsTheCanvas :
    let s := { idle sRender with canvas := [(0, 5)] }
    sRender.inReset = false ∧ 3 < 4 ∧ sRender.status.busy = true ∧ 2097151 < sRender.params.canvasCap ∧
    s.status.busy = false ∧ Words.read s.canvas 0 = some 5 ∧ Words.read s.canvas 2097151 = none ∧
    s.params.canvasCap ≤ 2097152 := by decide

theorem witness_HostReadsHaveNoSideEffect : ∃ t, hostRead (.out 0) sRender = .next t := ⟨_, rfl⟩

theorem witness_HostTurnsWhileBusyChangeOnlyWlost :
    let s := { sRender with schedule := [.hostWrite (.reg 0) 1] }
    s.status.busy = true ∧ s.status.done = false ∧ s.status.err = false ∧ s.status.errCode = 0 ∧
    (∃ a, s.nextTurn = .hostRead a ∨ ∃ v, s.nextTurn = .hostWrite a v) ∧ ∃ t, step s = .next t :=
  ⟨rfl, rfl, rfl, rfl, ⟨_, .inr ⟨_, rfl⟩⟩, _, rfl⟩

/-- The last addresses of the three spaces, and one in none of them. -/
theorem witness_SystemAddressesReachTheSpaces :
    sRender.inReset = false ∧ sRender.params.legal ∧ 0x3FFF < 0x4000 ∧
    4 * 2097152 - 1 < 4 * sRender.params.canvasCap ∧ 2 ^ 32 - 2 < sRender.params.romCap ∧
    sRender.params.regBase + 0x4000 ≤ 0x4000 ∧ 0x4000 < sRender.params.outBase ∧
    0x4000 < sRender.params.romBase := by decide

theorem witness_ResetAbandonsTheCommand :
    ({ sRender with schedule := [.resetAssert] } : State).nextTurn = .resetAssert := rfl

theorem witness_FirstCommandAfterReset : Instr.metaGrid false true ≠ .build := by decide

theorem witness_RomChangesOnlyWhileIdle :
    2 ^ 32 - 2 < sRender.params.romCap ∧ sRender.status.busy = true ∧ Memory.read sRender.rom (2 ^ 32 - 2) ≠ 1 ∧
    (idle sRender).status.busy = false := by decide

/-- A turn of the host and a turn of the engine. -/
theorem witness_StepKeepsTheStateLegal :
    ({ sRender with schedule := [.hostRead (.reg 4)] } : State).Inv ∧
    (∃ t, step { sRender with schedule := [.hostRead (.reg 4)] } = .next t) ∧
    sRender.Inv ∧ ∃ t, step sRender = .next t := by
  obtain ⟨t, h, -⟩ := sRender_next
  exact ⟨{ sRender_inv with }, ⟨_, rfl⟩, sRender_inv, t, sRender_step.trans h⟩

theorem witness_EveryAcceptedCommandCompletes : sRender.Inv ∧ sRender.palReady ∧ sRender.status.busy = true :=
  ⟨sRender_inv, greys_ready rfl, rfl⟩

theorem witness_TheOnlyFaultIsAnUnwrittenColour :
    sNoColour.Inv ∧ engineTurn sNoColour = .fault .paletteEntryUnwritten := by
  refine ⟨running_inv (by decide) (by decide) (by decide), ?_⟩
  have h : (match engineTurn sNoColour with | .fault f => f == .paletteEntryUnwritten | _ => false) = true := by
    decide +kernel
  cases ho : engineTurn sNoColour with
  | next t => rw [ho] at h; cases h
  | fault f => rw [ho] at h; simp at h; rw [h]
  | refused r => rw [ho] at h; cases h

theorem witness_BusyStepsUseUpTheSchedule :
    sRender.status.busy = true ∧ ∃ t, step { sRender with schedule := [.hostRead (.reg 4)] } = .next t := ⟨rfl, _, rfl⟩

/-- Two states with different canvases and different registers. -/
theorem witness_ResultsDependOnlyOnTheInputs :
    let s' : State := { sRender with canvas := [(0, 1), (5000, 9)], outW := 3, cmd := 7, readData := 1 }
    s'.latch = sRender.latch ∧ s'.pal = sRender.pal ∧ s'.tbl = sRender.tbl ∧ s'.rom = sRender.rom ∧
    s'.params = sRender.params ∧ s'.status.tblv = sRender.status.tblv ∧ sRender.status.err = false ∧
    s'.status.err = false ∧ ∃ t, exec .render sRender = .next t ∧ t.status.err = false := by
  obtain ⟨t, h, -, ht⟩ := sRender_next
  exact ⟨rfl, rfl, rfl, rfl, rfl, rfl, rfl, rfl, t, h, ht⟩

/-- A ROM that differs at ROMLEN and nowhere below. -/
theorem witness_NoByteBeyondRomLenIsRead :
    ∀ a, a < lenOf sRender → Memory.read (Memory.write romP1 0x200 0x77) a = Memory.read sRender.rom a := by
  intro a ha
  have ha' : a < 0x200 := ha
  exact Memory.read_write_of_ne _ _ (by omega)

end Sys2Proof.Machine.Tests
end

section
/-! The TBL window of the register map (R30). -/

namespace Sys2Proof.Machine

open Sys2Proof

/-- Each byte offset of a word of the TBL window names that word's table entry (R30, R35). -/
theorem slotAt_tbl_add (i : BitVec 10) {b : Nat} (hb : b < 4) : slotAt (0x1000 + 4 * i.toNat + b) = .tbl i := by
  have hword : 4 ∣ 0x1000 + 4 * i.toNat := by omega
  rw [slotAt_add hword hb, slotAt_tbl]

theorem readSlot_tbl (s : State) (i : BitVec 10) :
    readSlot s (.tbl i) = some (if s.status.tblv then BitVec.ofNat 32 (tblEntry s i).toNat else 0) := by
  simp only [readSlot, BitVec.ofNat_toNat]

/-- A read that has one value changes `readData` alone. -/
theorem deliver_some_eq (w : Word) (s : State) : deliver (some w) s = { s with readData := w } := rfl

theorem writeSlot_tbl (v : Word) (s : State) (i : BitVec 10) : writeSlot v s (.tbl i) = s := rfl

/-- Settles O43: the offset lies in REG and names the entry's slot; what remains is what that slot answers to a read
and to a write, and neither looks at BUSY. -/
theorem tableWindowReadsTheTable : Obligations.TableWindowReadsTheTable := by
  intro s i v b hr hb
  have hslot := slotAt_tbl_add i hb
  have hreg : 0x1000 + 4 * i.toNat + b < 0x4000 := by have := i.isLt; omega
  constructor
  · rw [hostRead_reg hr hreg, hslot, readSlot_tbl, deliver_some_eq]
  · rw [hostWrite_reg hr hreg, hslot, writeSlot_tbl]

end Sys2Proof.Machine
end

section
/-! Which words of REG a host write can change (R36, R37), and where they stand in the register map (R15). -/

namespace Sys2Proof.Machine

open Sys2Proof

/-- The words R37 lists: CMD, the argument registers and the palette. A write to one is dropped while BUSY = 1. -/
def Slot.isInput : Slot → Bool
  | .cmd | .offset | .count | .romLen | .palCnt | .pal _ => true
  | .status | .errAddr | .errInfo | .outW | .outH | .tbl _ | .reserved => false

/-- The words that ignore writes: the read-only registers, the TBL window and the reserved words (R22 to R24, R30,
R36). -/
def Slot.ignoresWrites : Slot → Bool
  | .errAddr | .errInfo | .outW | .outH | .tbl _ | .reserved => true
  | .cmd | .status | .offset | .count | .romLen | .palCnt | .pal _ => false

/-- A dropped write (R37). -/
theorem writeSlot_of_isInput {s : State} {k : Slot} (v : Word) (hb : s.status.busy = true) (hk : k.isInput = true) :
    writeSlot v s k = { s with status := { s.status with wlost := true } } := by
  cases k with
  | cmd | offset | count | romLen | palCnt | pal => exact unlessBusy_of_busy s _ hb
  | status | errAddr | errInfo | outW | outH | tbl | reserved => cases hk

/-- A write that is ignored, which is not a dropped write: WLOST too stays as it was (R36). -/
theorem writeSlot_of_ignoresWrites {k : Slot} (v : Word) (s : State) (hk : k.ignoresWrites = true) :
    writeSlot v s k = s := by
  cases k with
  | errAddr | errInfo | outW | outH | tbl | reserved => rfl
  | cmd | status | offset | count | romLen | palCnt | pal => cases hk

/-- A write to STATUS is performed whatever BUSY is (R37, R101). -/
theorem writeSlot_status (v : Word) (s : State) : writeSlot v s .status = acknowledge v s := rfl

theorem readSlot_reserved (s : State) : readSlot s .reserved = some 0 := rfl

/-- Each byte offset of the word at 0x004 is STATUS (R35). -/
theorem slotAt_status {off : Nat} (h : 0x04 ≤ off ∧ off < 0x08) : slotAt off = .status := by
  rw [slotAt_of_div (k := 1) (by omega)]; rfl

/-- Each byte offset of a word of the PAL window names that word's palette entry (R26, R35). -/
theorem slotAt_pal_add {n b : Nat} (hn : n < 256) (hb : b < 4) : slotAt (0x2000 + 4 * n + b) = .pal n := by
  have hword : 4 ∣ 0x2000 + 4 * n := by omega
  rw [slotAt_add hword hb, slotAt_pal hn]

theorem slotAt_isInput {off : Nat} (h : off < 0x04 ∨ (0x08 ≤ off ∧ off < 0x18) ∨ (0x2000 ≤ off ∧ off < 0x2400)) :
    (slotAt off).isInput = true := by
  rcases h with hcmd | harg | hpal
  · rw [slotAt_of_div (k := 0) (by omega)]; rfl
  · have hword : off / 4 = 2 ∨ off / 4 = 3 ∨ off / 4 = 4 ∨ off / 4 = 5 := by omega
    rcases hword with hk | hk | hk | hk <;> rw [slotAt_of_div hk] <;> rfl
  · obtain ⟨n, b, hn, hb, rfl⟩ : ∃ n b, n < 256 ∧ b < 4 ∧ off = 0x2000 + 4 * n + b :=
      ⟨(off - 0x2000) / 4, off % 4, by omega, by omega, by omega⟩
    rw [slotAt_pal_add hn hb]; rfl

theorem slotAt_ignoresWrites_of_readOnly {off : Nat}
    (h : (0x018 ≤ off ∧ off < 0x028) ∨ (0x1000 ≤ off ∧ off < 0x2000)) : (slotAt off).ignoresWrites = true := by
  rcases h with hreg | htbl
  · have hword : off / 4 = 6 ∨ off / 4 = 7 ∨ off / 4 = 8 ∨ off / 4 = 9 := by omega
    rcases hword with hk | hk | hk | hk <;> rw [slotAt_of_div hk] <;> rfl
  · obtain ⟨i, b, hb, rfl⟩ : ∃ (i : BitVec 10) (b : Nat), b < 4 ∧ off = 0x1000 + 4 * i.toNat + b :=
      ⟨BitVec.ofNat 10 ((off - 0x1000) / 4), off % 4, by omega, by rw [BitVec.toNat_ofNat]; omega⟩
    rw [slotAt_tbl_add i hb]; rfl

/-- Settles O38: the offsets of R37's list are the input words, whose writes BUSY = 1 drops; STATUS takes its write
whatever BUSY is, and a read of REG always answers. -/
theorem writesWhileBusyAreDropped : Obligations.WritesWhileBusyAreDropped := by
  intro s off v hr hb
  refine ⟨fun hinput => ?_, fun hlow hhigh => ?_, fun hreg => ⟨_, hostRead_reg hr hreg⟩⟩
  · rw [hostWrite_reg hr (by omega), writeSlot_of_isInput v hb (slotAt_isInput hinput)]
  · rw [hostWrite_reg hr (by omega), slotAt_status ⟨hlow, hhigh⟩, writeSlot_status]

/-- Settles O45: the offsets outside every register and window are reserved words, and those of the read-only registers
and of the TBL window are words that ignore writes as well. -/
theorem reservedAndReadOnlyWordsIgnoreWrites : Obligations.ReservedAndReadOnlyWordsIgnoreWrites := by
  intro s off v hr
  refine ⟨fun hres => ?_, fun hro => ?_⟩
  · have hslot := slotAt_reserved hres
    have hreg : off < 0x4000 := by omega
    constructor
    · rw [hostRead_reg hr hreg, hslot, readSlot_reserved, deliver_some_eq]
    · rw [hostWrite_reg hr hreg, hslot, writeSlot_of_ignoresWrites v s rfl]
  · rw [hostWrite_reg hr (by omega), writeSlot_of_ignoresWrites v s (slotAt_ignoresWrites_of_readOnly hro)]

end Sys2Proof.Machine
end

section
/-! What the decoder answers for each word (R54), which words are valid image commands (R52), and what acceptance makes
of OUTV (R56). -/

namespace Sys2Proof.Machine

open Sys2Proof

/-- The decoder row by row, in the order of R54's conditions, with the words that match no row last. -/
theorem decode_cases (w : Word) :
    (w = 1 ∧ decode w = .ok .build) ∨ (w = 2 ∧ decode w = .ok .render) ∨ (w = 3 ∧ decode w = .ok .compose) ∨
    (w &&& 0xFFFFFFEF = 4 ∧ decode w = .ok (.metaTile (w.getLsbD 4))) ∨
    (w &&& 0xFFFFFFCF = 5 ∧ decode w = .ok (.metaGrid (w.getLsbD 4) (w.getLsbD 5))) ∨
    (¬ validWord w ∧ decode w = .error (badWordReason w)) := by
  unfold decode
  split_ifs with hbuild hrender hcompose hmeta hgrid
  · exact .inl ⟨hbuild, rfl⟩
  · exact .inr (.inl ⟨hrender, rfl⟩)
  · exact .inr (.inr (.inl ⟨hcompose, rfl⟩))
  · exact .inr (.inr (.inr (.inl ⟨hmeta, rfl⟩)))
  · exact .inr (.inr (.inr (.inr (.inl ⟨hgrid, rfl⟩))))
  · refine .inr (.inr (.inr (.inr (.inr ⟨?_, rfl⟩))))
    rintro (h | h | h | h | h)
    exacts [hbuild h, hrender h, hcompose h, hmeta h, hgrid h]

/-- The OP field of a word that matches a pattern under a mask holding all four OP bits (R51). -/
theorem op_eq_of_and_eq {w mask pat : Word} (hmask : mask.extractLsb' 0 4 = BitVec.allOnes 4)
    (h : w &&& mask = pat) : w.extractLsb' 0 4 = pat.extractLsb' 0 4 := by
  rw [← h, BitVec.extractLsb'_and, hmask, BitVec.and_allOnes]

/-- A word that decodes is valid, and its OP is the one its command is written with (R51, R52). -/
theorem decode_ok {w : Word} {i : Instr} (h : decode w = .ok i) :
    validWord w ∧ w.extractLsb' 0 4 = i.fields.op := by
  rcases decode_cases w with ⟨hw, hd⟩ | ⟨hw, hd⟩ | ⟨hw, hd⟩ | ⟨hw, hd⟩ | ⟨hw, hd⟩ | ⟨-, hd⟩ <;>
    rw [hd] at h <;> cases h
  · exact ⟨.inl hw, by rw [hw]; rfl⟩
  · exact ⟨.inr (.inl hw), by rw [hw]; rfl⟩
  · exact ⟨.inr (.inr (.inl hw)), by rw [hw]; rfl⟩
  · exact ⟨.inr (.inr (.inr (.inl hw))), op_eq_of_and_eq (by decide) hw⟩
  · exact ⟨.inr (.inr (.inr (.inr hw))), op_eq_of_and_eq (by decide) hw⟩

theorem decode_error {w : Word} {r : BadWord} (h : decode w = .error r) : ¬ validWord w := by
  rcases decode_cases w with ⟨-, hd⟩ | ⟨-, hd⟩ | ⟨-, hd⟩ | ⟨-, hd⟩ | ⟨-, hd⟩ | ⟨hw, -⟩
  case inr.inr.inr.inr.inr => exact hw
  all_goals rw [hd] at h; cases h

/-- The image commands are those of OP 2 to 5 (R52). -/
theorem isImage_iff_op (i : Instr) : i.isImage = true ↔ 2 ≤ i.fields.op.toNat ∧ i.fields.op.toNat ≤ 5 := by
  cases i with
  | build | render | compose | metaTile | metaGrid => simp [Instr.isImage, Instr.fields]

/-- A valid command word whose OP is 2 to 5. -/
def imageWord (w : Word) : Prop :=
  validWord w ∧ 2 ≤ (w.extractLsb' 0 4).toNat ∧ (w.extractLsb' 0 4).toNat ≤ 5

/-- The decoder reads exactly those words as image commands. -/
theorem imageWord_iff_decode (w : Word) : imageWord w ↔ ∃ i, decode w = .ok i ∧ i.isImage = true := by
  unfold imageWord
  cases hd : decode w with
  | ok i =>
    obtain ⟨hvalid, hop⟩ := decode_ok hd
    simp [hvalid, hop, isImage_iff_op]
  | error r => simp [decode_error hd]

theorem Status_accept_outv_of_imageWord {w : Word} (st : Status) (h : imageWord w) : (st.accept w).outv = false := by
  obtain ⟨i, hd, himage⟩ := (imageWord_iff_decode w).mp h
  simp [Status_accept_outv, hd, himage]

theorem Status_accept_outv_of_not_imageWord {w : Word} (st : Status) (h : ¬ imageWord w) :
    (st.accept w).outv = st.outv := by
  rw [imageWord_iff_decode] at h
  cases hd : decode w with
  | ok i =>
    have himage : i.isImage = false := Bool.eq_false_iff.mpr fun hi => h ⟨i, hd, hi⟩
    simp [Status_accept_outv, hd, himage]
  | error r => simp [Status_accept_outv, hd]

/-- Each byte offset of the word at 0x000 is CMD (R35). -/
theorem slotAt_cmd {b : Nat} (hb : b < 4) : slotAt (0x000 + b) = .cmd := by
  rw [slotAt_of_div (k := 0) (by omega)]; rfl

/-- A CMD write that is not dropped is an acceptance (R56). -/
theorem writeSlot_cmd_of_idle {s : State} (v : Word) (hb : s.status.busy = false) :
    writeSlot v s .cmd = acceptCommand v s := unlessBusy_of_idle s _ hb

/-- Settles O37: the offset is CMD's. While BUSY = 1 CMD is one of the words whose write is dropped; while BUSY = 0
the write is an acceptance, and the OUTV it leaves turns on whether the decoder reads an image command. -/
theorem cmdWriteIsAcceptance : Obligations.CmdWriteIsAcceptance := by
  intro s v b hr hb
  have hwrite : hostWrite (.reg (0x000 + b)) v s = .next (writeSlot v s .cmd) := by
    rw [hostWrite_reg hr (by omega), slotAt_cmd hb]
  refine ⟨fun hbusy => ?_, fun hidle => ⟨(s.status.accept v).outv, ?_, ?_, ?_⟩⟩
  · rw [hwrite, writeSlot_of_isInput v hbusy rfl]
  · rw [hwrite, writeSlot_cmd_of_idle v hidle]; rfl
  · exact Status_accept_outv_of_imageWord s.status
  · exact Status_accept_outv_of_not_imageWord s.status

end Sys2Proof.Machine
end

section
/-! The deinterleave table (R61 to R63): its bit form, and the two sides of its inverse. -/

namespace Sys2Proof.Machine

open Sys2Proof

/-- An append as a sum: the high part weighs two to the width of the low part. -/
theorem toNat_append_eq_add {m n : Nat} (x : BitVec m) (y : BitVec n) :
    (x ++ y).toNat = x.toNat * 2 ^ n + y.toNat := by
  rw [BitVec.toNat_append, ← Nat.shiftLeft_add_eq_or_of_lt y.isLt, Nat.shiftLeft_eq]

/-- Settles O9: both sides as numbers, the wiring as the sum of its four weighted fields. -/
theorem tableBitForm : Obligations.TableBitForm := by
  intro i
  apply BitVec.eq_of_toNat_eq
  rw [tableEntry_toNat]
  simp only [tableSource, tableX, tableY, toNat_append_eq_add, BitVec.extractLsb'_toNat, Nat.shiftRight_eq_div_pow]
  omega

theorem tableEntry_mod (i : BitVec 10) : (tableEntry i).toNat % 32 = tableX i := by
  have hx := tableX_lt i
  rw [tableEntry_toNat, tableSource]; omega

theorem tableEntry_div (i : BitVec 10) : (tableEntry i).toNat / 32 = tableY i := by
  have hx := tableX_lt i
  rw [tableEntry_toNat, tableSource]; omega

/-- A stream index has coordinates below 32. -/
theorem stream_coords_lt (j : BitVec 10) : j.toNat % 32 < 32 ∧ j.toNat / 32 < 32 := by
  have := j.isLt
  omega

theorem tableInv_toNat (j : BitVec 10) : (tableInv j).toNat = tableDest (j.toNat % 32) (j.toNat / 32) :=
  toNat_ofNat_tableDest (stream_coords_lt j).1 (stream_coords_lt j).2

theorem tableInv_tableEntry (i : BitVec 10) : tableInv (tableEntry i) = i := by
  apply BitVec.eq_of_toNat_eq
  rw [tableInv_toNat, tableEntry_mod, tableEntry_div, tableDest_tableXY]

theorem tableEntry_tableInv (j : BitVec 10) : tableEntry (tableInv j) = j := by
  obtain ⟨hx, hy⟩ := stream_coords_lt j
  apply BitVec.eq_of_toNat_eq
  rw [tableEntry_toNat, tableInv, tableX_dest hx hy, tableY_dest hx hy, tableSource, Nat.mod_add_div]

/-- With the built table, raster index `Tinv[j]` shows the nibble at stream index `j` (R63). -/
theorem pixelNibble_tableInv {s : State} (h : s.tbl = builtTable) (off : Nat) (j : BitVec 10) :
    pixelNibble s off (tableInv j).toNat = romNibble s off j := by
  rw [pixelNibble, BitVec.ofNat_toNat, BitVec.setWidth_eq, tblEntry_of_built h, tableEntry_tableInv]

/-- Settles O10: `tableInv` undoes `tableEntry` and is undone by it, since both only rearrange the coordinates
`(x, y)`; the worked values are evaluated. -/
theorem tableIsAPermutationWithTheStatedInverse : Obligations.TableIsAPermutationWithTheStatedInverse :=
  ⟨tableInv_tableEntry, tableEntry_tableInv, tableInv_toNat, fun _ off j h => pixelNibble_tableInv h off j, by decide⟩

end Sys2Proof.Machine
end

section
/-! What a tile shows of its nibbles (R66, R67). -/

namespace Sys2Proof.Machine

open Sys2Proof

/-- A pixel of a tile inside the ROM space is the colour of its nibble (R66). -/
theorem decodeTile_eq_palColour {s : State} {off : Nat} (h : off + 512 ≤ s.params.romCap) (i : Nat) :
    decodeTile s off i = palColour s (pixelNibble s off i).toNat := decodeTile_of_tile h i

theorem romNibble_of_zero_byte {s : State} {off : Nat} {j : BitVec 10}
    (h : Memory.read s.rom (off + j.toNat / 2) = 0) : romNibble s off j = 0 := by
  unfold romNibble
  rw [h]; split <;> rfl

/-- A command reads nothing of a palette entry but the word it holds. -/
theorem palColour_congr {s t : State} {m n : Nat} (h : Words.read s.pal m = Words.read t.pal n) :
    palColour s m = palColour t n := by
  simp only [palColour, h]

/-- Tiles that show one colour at a raster index hold one nibble there when the palette's colours are distinct. -/
theorem pixelNibble_eq_of_decodeTile_eq {s : State} {off off' i : Nat} {pal : BitVec 4 → Word}
    (h : off + 512 ≤ s.params.romCap) (h' : off' + 512 ≤ s.params.romCap)
    (hpal : ∀ n : BitVec 4, Words.read s.pal n.toNat = some (pal n)) (hinj : ∀ m n : BitVec 4, pal m = pal n → m = n)
    (heq : decodeTile s off i = decodeTile s off' i) : pixelNibble s off i = pixelNibble s off' i := by
  rw [decodeTile_eq_palColour h, decodeTile_eq_palColour h', palColour_of_read (hpal _),
    palColour_of_read (hpal _)] at heq
  exact hinj _ _ (Except.ok.inj heq)

/-- Settles O11: a pixel is the colour of its nibble, and the place of stream index `j` is `Tinv[j]`. -/
theorem decodingIsLossless : Obligations.DecodingIsLossless := by
  refine ⟨?zeros, fun _ off j h => pixelNibble_tableInv h off j, ?distinct, ?alike⟩
  case zeros =>
    intro s off hcap hzero i _
    rw [decodeTile_eq_palColour hcap, pixelNibble, romNibble_of_zero_byte (hzero _ (stream_byte_lt _))]
    rfl
  case distinct =>
    intro s off off' pal htbl hcap hcap' hpal hinj heq j
    have hshown := pixelNibble_eq_of_decodeTile_eq hcap hcap' hpal hinj (heq _ (tableInv j).isLt)
    rwa [pixelNibble_tableInv htbl, pixelNibble_tableInv htbl] at hshown
  case alike =>
    intro s s' off m n hpal hparams hcap hmn hm hn i
    have hcap' : off + 512 ≤ s'.params.romCap := hparams ▸ hcap
    rw [decodeTile_eq_palColour hcap, decodeTile_eq_palColour hcap', pixelNibble, pixelNibble, hm, hn]
    exact palColour_congr (hpal ▸ hmn)

end Sys2Proof.Machine
end

section
/-! The masked blend (R70): what `mix` rounds to, and the blend channel by channel. -/

namespace Sys2Proof.Machine

open Sys2Proof

/-! ### The rounding of `mix` -/

/-- The `t` of R70 is at most `255 * 255`. -/
theorem mixSum_le {p q a : Nat} (hp : p ≤ 255) (hq : q ≤ 255) (ha : a ≤ 255) : p * (255 - a) + q * a ≤ 65025 := by
  have h1 := Nat.mul_le_mul_right (255 - a) hp
  have h2 := Nat.mul_le_mul_right a hq
  omega

/-- Two shifts divide by 255: for `u = 256 * k + r` the sum `u + u / 256` is `256 * k + (k + r)`, so its high part is
`k`, or `k + 1` when `k + r` carries. That is the integer nearest to `(u - 128) / 255`. -/
theorem shift_round_nearest {t : Nat} (h : t ≤ 65025) :
    2 * t < 255 * (2 * (((t + 128) + ((t + 128) >>> 8)) >>> 8) + 1) ∧
    255 * (2 * (((t + 128) + ((t + 128) >>> 8)) >>> 8)) < 2 * t + 255 := by
  simp only [Nat.shiftRight_eq_div_pow]
  obtain ⟨k, r, hu, hr⟩ : ∃ k r, t + 128 = 256 * k + r ∧ r < 256 :=
    ⟨(t + 128) / 256, (t + 128) % 256, by omega, by omega⟩
  have hk : (t + 128) / 2 ^ 8 = k := by omega
  rw [hk]
  by_cases hcarry : k + r < 256
  · have hm : (t + 128 + k) / 2 ^ 8 = k := by omega
    rw [hm]; omega
  · have hm : (t + 128 + k) / 2 ^ 8 = k + 1 := by omega
    rw [hm]; omega

/-- `mix` is the integer nearest to `t / 255`, and never half way from it (R70). -/
theorem mixNat_nearest {p q a : Nat} (hp : p ≤ 255) (hq : q ≤ 255) (ha : a ≤ 255) :
    2 * (p * (255 - a) + q * a) < 255 * (2 * mixNat p q a + 1) ∧
    255 * (2 * mixNat p q a) < 2 * (p * (255 - a) + q * a) + 255 :=
  shift_round_nearest (mixSum_le hp hq ha)

theorem mixNat_le {p q a : Nat} (hp : p ≤ 255) (hq : q ≤ 255) (ha : a ≤ 255) : mixNat p q a ≤ 255 := by
  have ht := mixSum_le hp hq ha
  have hn := (mixNat_nearest hp hq ha).2
  omega

/-- The sum before the last shift of R70 fits 17 bits. -/
theorem mixShifted_lt {t : Nat} (h : t ≤ 65025) : (t + 128) + ((t + 128) >>> 8) < 2 ^ 17 := by
  simp only [Nat.shiftRight_eq_div_pow]
  omega

theorem mixNat_alpha_max {p q : Nat} (hp : p ≤ 255) (hq : q ≤ 255) : mixNat p q 255 = q := by
  obtain ⟨hlo, hhi⟩ := mixNat_nearest hp hq le_rfl
  omega

theorem mixNat_alpha_zero {p q : Nat} (hp : p ≤ 255) (hq : q ≤ 255) : mixNat p q 0 = p := by
  obtain ⟨hlo, hhi⟩ := mixNat_nearest hp hq (Nat.zero_le 255)
  omega

/-! ### `mix` on channels -/

theorem chan_le (p : BitVec 8) : p.toNat ≤ 255 := Nat.le_of_lt_succ p.isLt

theorem mix_toNat (p q a : BitVec 8) : (mix p q a).toNat = mixNat p.toNat q.toNat a.toNat := by
  have := mixNat_le (chan_le p) (chan_le q) (chan_le a)
  rw [mix, BitVec.toNat_ofNat, Nat.mod_eq_of_lt (by omega)]

theorem mix_alpha_max (p q : BitVec 8) : mix p q 255 = q :=
  BitVec.eq_of_toNat_eq ((mix_toNat p q 255).trans (mixNat_alpha_max (chan_le p) (chan_le q)))

theorem mix_alpha_zero (p q : BitVec 8) : mix p q 0 = p :=
  BitVec.eq_of_toNat_eq ((mix_toNat p q 0).trans (mixNat_alpha_zero (chan_le p) (chan_le q)))

/-! ### The blend, channel by channel -/

/-- The channels of `rgba r g b a` are `r`, `g`, `b` and `a` (R69). -/
theorem rgba_channels (r g b a : BitVec 8) :
    chanR (rgba r g b a) = r ∧ chanG (rgba r g b a) = g ∧ chanB (rgba r g b a) = b ∧ chanA (rgba r g b a) = a := by
  have hR : chanR (rgba r g b a) = r :=
    (BitVec.extractLsb'_append_eq_of_le (by decide)).trans ((BitVec.extractLsb'_append_eq_of_le (by decide)).trans
      BitVec.extractLsb'_append_eq_left)
  have hG : chanG (rgba r g b a) = g :=
    (BitVec.extractLsb'_append_eq_of_le (by decide)).trans ((BitVec.extractLsb'_append_eq_of_le (by decide)).trans
      BitVec.extractLsb'_append_eq_right)
  have hB : chanB (rgba r g b a) = b :=
    (BitVec.extractLsb'_append_eq_of_le (by decide)).trans BitVec.extractLsb'_append_eq_right
  exact ⟨hR, hG, hB, BitVec.extractLsb'_append_eq_right⟩

/-- A colour is made of its four channels (R69). -/
theorem rgba_of_channels (c : Word) : rgba (chanR c) (chanG c) (chanB c) (chanA c) = c := by
  apply BitVec.eq_of_toNat_eq
  simp only [chanR, chanG, chanB, chanA, rgba, toNat_append_eq_add, BitVec.extractLsb'_toNat,
    Nat.shiftRight_eq_div_pow]
  omega

/-- Each channel of the blend mixes the two channels of its place under the source's alpha (R70). -/
theorem blend_channel (d c : Word) {lo : Nat} (h : lo ∈ [24, 16, 8, 0]) :
    (blend d c).extractLsb' lo 8 = mix (d.extractLsb' lo 8) (c.extractLsb' lo 8) (chanA c) := by
  obtain ⟨hr, hg, hb, ha⟩ := rgba_channels (mix (chanR d) (chanR c) (chanA c)) (mix (chanG d) (chanG c) (chanA c))
    (mix (chanB d) (chanB c) (chanA c)) (mix (chanA d) (chanA c) (chanA c))
  simp only [List.mem_cons, List.not_mem_nil, or_false] at h
  rcases h with rfl | rfl | rfl | rfl
  · exact hr
  · exact hg
  · exact hb
  · exact ha

theorem blend_alpha_max {c : Word} (d : Word) (h : chanA c = 255) : blend d c = c := by
  simp only [blend, h, mix_alpha_max]
  rw [← h, rgba_of_channels]

theorem blend_alpha_zero {c : Word} (d : Word) (h : chanA c = 0) : blend d c = d := by
  simp only [blend, h, mix_alpha_zero, rgba_of_channels]

/-- Settles O12: the rounding is a fact of `mix` alone, and the two ends follow from it channel by channel. -/
theorem blendRoundsToTheNearest : Obligations.BlendRoundsToTheNearest := by
  refine ⟨fun d c lo hlo => ?channel, fun p q a hp hq ha => ?rounding, fun d _ => blend_alpha_max d,
    fun d _ => blend_alpha_zero d⟩
  case channel => exact (congrArg BitVec.toNat (blend_channel d c hlo)).trans (mix_toNat _ _ _)
  case rounding =>
    have ht := mixSum_le hp hq ha
    obtain ⟨hlo, hhi⟩ := mixNat_nearest hp hq ha
    exact ⟨ht, mixShifted_lt ht, hlo, hhi, mixNat_le hp hq ha⟩

end Sys2Proof.Machine
end

section
/-! The sub-tiles of a meta-tile (R76). -/

namespace Sys2Proof.Machine

open Sys2Proof

/-- A pixel lies in the rectangle of sub-tile `k` exactly when its column of sub-tiles is `k / 2` and its row of them
is `k % 2`. -/
theorem in_subTile_iff (k x y : Nat) :
    (subX k ≤ x ∧ x < subX k + 32 ∧ subY k ≤ y ∧ y < subY k + 32) ↔ (x / 32 = k / 2 ∧ y / 32 = k % 2) := by
  simp only [subX, subY, tileSide]
  omega

/-- Settles O15: the sub-tile of the pixel in column `x / 32` and row `y / 32` is number `2 * (x / 32) + y / 32`. -/
theorem subTilesTileTheMetaTile : Obligations.SubTilesTileTheMetaTile := by
  refine ⟨by decide, fun x y hx hy => ?cover, fun k hk => ?inside⟩
  case cover =>
    have hrow : y / 32 < 2 := by omega
    obtain ⟨hx0, hx1, hy0, hy1⟩ := (in_subTile_iff (2 * (x / 32) + y / 32) x y).mpr (by omega)
    refine ⟨2 * (x / 32) + y / 32, by omega, hx0, hx1, hy0, hy1, fun j _ hj0 hj1 hj2 hj3 => ?_⟩
    have hj := (in_subTile_iff j x y).mp ⟨hj0, hj1, hj2, hj3⟩
    omega
  case inside =>
    simp only [subX, subY, tileSide]
    omega

end Sys2Proof.Machine
end

section
/-! The errors of the checks that commands share (R88, R89, R92 to R94): which command each check ends, and the failure
it leaves. -/

namespace Sys2Proof.Machine

open Sys2Proof

/-! ### Completion with an error of the whole command -/

/-- An error that is not about a ROM range leaves OFFSET in ERRADDR and 0 in ERRINFO (R97, R99). -/
theorem errorCompletion_at_offset (c : ErrCode) (s : State) :
    errorCompletion ⟨c, s.argOff, 0⟩ s = failedWith s c.number s.latch.off 0 := by
  have haddr : BitVec.ofNat 32 s.argOff = s.latch.off := by rw [State.argOff, BitVec.ofNat_toNat, BitVec.setWidth_eq]
  simp only [errorCompletion, haddr]
  rfl

/-- The preconditions come first in every command but BUILD (R96). -/
theorem exec_of_checkPreconditions_error {s : State} {i : Instr} {c : ErrCode} (hi : i ≠ .build)
    (h : checkPreconditions s = .error (.raised ⟨c, s.argOff, 0⟩)) :
    exec i s = .next (failedWith s c.number s.latch.off 0) := by
  rw [← errorCompletion_at_offset]
  cases i with
  | build => exact absurd rfl hi
  | render => simp only [exec, execRender, renderWrites, h, perf_error_bind, completeCommand_raised]
  | compose => simp only [exec, execCompose, composeWrites, h, perf_error_bind, completeCommand_raised]
  | metaTile => simp only [exec, execMetaTile, metaTileWrites, h, perf_error_bind, completeCommand_raised]
  | metaGrid => simp only [exec, execMetaGrid, metaGridWrites, h, perf_error_bind, completeCommand_raised]

theorem checkPreconditions_of_decodeReady {s : State} (h : decodeReady s) : checkPreconditions s = .ok () :=
  checkPreconditions_ok.mpr h

/-- The grid checks come next in COMPOSE (R96). -/
theorem execCompose_of_checkGrid_error {s : State} {c : ErrCode} (hready : decodeReady s)
    (h : checkGrid s tileSide tileSide = .error (.raised ⟨c, s.argOff, 0⟩)) :
    exec .compose s = .next (failedWith s c.number s.latch.off 0) := by
  rw [← errorCompletion_at_offset]
  simp only [exec, execCompose, composeWrites, checkPreconditions_of_decodeReady hready, h, perf_ok_bind,
    perf_error_bind, completeCommand_raised]

/-- The grid checks come next in METAGRID (R96). -/
theorem execMetaGrid_of_checkGrid_error {s : State} {c : ErrCode} (msub mgrid : Bool) (hready : decodeReady s)
    (h : checkGrid s metaW metaH = .error (.raised ⟨c, s.argOff, 0⟩)) :
    exec (.metaGrid msub mgrid) s = .next (failedWith s c.number s.latch.off 0) := by
  rw [← errorCompletion_at_offset]
  simp only [exec, execMetaGrid, metaGridWrites, checkPreconditions_of_decodeReady hready, h, perf_ok_bind,
    perf_error_bind, completeCommand_raised]

/-! ### The preconditions -/

/-- Settles O25: ROMLEN 0 fails the first precondition; BUILD checks nothing, and its success leaves ERR and ERRCODE
alone. -/
theorem inputMissingIsReported : Obligations.InputMissingIsReported := by
  intro s i hlen
  refine ⟨fun hi => ?_, ⟨_, rfl, rfl, rfl⟩⟩
  exact exec_of_checkPreconditions_error hi (checkPreconditions_error.mpr (.inl ⟨hlen, rfl⟩))

/-- Settles O26: with the ROM present a short palette fails the second precondition. -/
theorem paletteTooSmallIsReported : Obligations.PaletteTooSmallIsReported := by
  intro s i hi hlen hpal
  exact exec_of_checkPreconditions_error hi (checkPreconditions_error.mpr (.inr (.inl ⟨hlen, hpal, rfl⟩)))

/-- Settles O27: with the ROM and the palette there, TBLV = 0 fails the third precondition. -/
theorem tableNotBuiltIsReported : Obligations.TableNotBuiltIsReported := by
  intro s i hi hlen hpal htblv
  exact exec_of_checkPreconditions_error hi (checkPreconditions_error.mpr (.inr (.inr ⟨hlen, hpal, htblv, rfl⟩)))

/-! ### The grid checks -/

/-- Settles O28: COUNT 0 fails the first grid check, whatever the size of a cell. -/
theorem countZeroIsReported : Obligations.CountZeroIsReported := by
  intro s msub mgrid hready hcnt
  have hgrid : ∀ cw ch, checkGrid s cw ch = .error (.raised ⟨.countZero, s.argOff, 0⟩) :=
    fun cw ch => checkGrid_error.mpr (.inl ⟨hcnt, rfl⟩)
  exact ⟨execCompose_of_checkGrid_error hready (hgrid _ _),
    execMetaGrid_of_checkGrid_error msub mgrid hready (hgrid _ _)⟩

theorem gridW_eq_colsOf (cw cnt : Nat) : gridW cw cnt = cw * colsOf cnt := rfl

theorem gridH_eq_rowsOf (ch cnt : Nat) : gridH ch cnt = ch * rowsOf cnt := rfl

theorem checkGrid_overflow {s : State} {cw ch : Nat} (hcnt : cntOf s ≠ 0)
    (h : s.params.canvasCap < cw * colsOf (cntOf s) * (ch * rowsOf (cntOf s))) :
    checkGrid s cw ch = .error (.raised ⟨.canvasOverflow, s.argOff, 0⟩) := by
  rw [← gridW_eq_colsOf, ← gridH_eq_rowsOf] at h
  exact checkGrid_error.mpr (.inr ⟨hcnt, h, rfl⟩)

/-! ### The codes of RENDER and META -/

/-- A precondition raises one of its three codes, at OFFSET (R88, R89, R92, R97). -/
theorem checkPreconditions_raised {s : State} {e : CmdError} (h : checkPreconditions s = .error (.raised e)) :
    e.code ∈ [.inputMissing, .paletteTooSmall, .tableNotBuilt] ∧ e.addr = s.argOff := by
  rcases checkPreconditions_error.mp h with ⟨-, he⟩ | ⟨-, -, he⟩ | ⟨-, -, -, he⟩ <;> cases he <;> simp

/-- A grid check raises one of its two codes, at OFFSET (R93, R94, R97). -/
theorem checkGrid_raised {s : State} {cw ch : Nat} {e : CmdError} (h : checkGrid s cw ch = .error (.raised e)) :
    e.code ∈ [.countZero, .canvasOverflow] ∧ e.addr = s.argOff := by
  rcases checkGrid_error.mp h with ⟨-, he⟩ | ⟨-, -, he⟩ <;> cases he <;> simp

theorem metaRaises_code {s : State} {m d : Nat} {e : CmdError} (h : metaRaises s m d e) : e.code = .outOfRange := by
  obtain ⟨k, -, -, rfl | ⟨t, -, rfl⟩⟩ := h <;> rfl

/-- The codes of a command whose only checks are the preconditions and ROM ranges (R87). -/
def singleUnitCodes : List ErrCode := [.inputMissing, .paletteTooSmall, .tableNotBuilt, .outOfRange]

theorem mem_singleUnitCodes {s : State} {e : CmdError}
    (h : checkPreconditions s = .error (.raised e) ∨ e.code = .outOfRange) : e.code ∈ singleUnitCodes := by
  rcases h with h | h
  · exact List.mem_append_left [ErrCode.outOfRange] (checkPreconditions_raised h).1
  · simp [singleUnitCodes, h]

theorem renderWrites_code {s : State} {e : CmdError} (h : renderWrites s = .error (.raised e)) :
    e.code ∈ singleUnitCodes :=
  mem_singleUnitCodes ((renderWrites_raised h).imp_right fun he => by rw [he])

theorem metaTileWrites_code {s : State} {msub : Bool} {e : CmdError}
    (h : metaTileWrites msub s = .error (.raised e)) : e.code ∈ singleUnitCodes :=
  mem_singleUnitCodes ((metaTileWrites_raised h).imp_right metaRaises_code)

theorem storeImage_errCode {W H : Nat} {img : Image} {s t : State} (h : storeImage W H img s = .ok t) :
    t.status.errCode = s.status.errCode := by
  obtain ⟨-, ws, -, -, rfl⟩ := storeImage_ok h
  rfl

/-- ERRCODE after a completion: what it was, or the number of the code that was raised (R99, R100). -/
theorem completeCommand_errCode {s t : State} {r : Perf State}
    (hok : ∀ u, r = .ok u → u.status.errCode = s.status.errCode) (h : completeCommand s r = .next t) :
    t.status.errCode = s.status.errCode ∨ ∃ e, r = .error (.raised e) ∧ t.status.errCode = e.code.number := by
  rcases completeCommand_next h with ⟨u, hu, rfl⟩ | ⟨e, he, rfl⟩
  · exact .inl (hok u hu)
  · exact .inr ⟨e, he, rfl⟩

/-- A command that raises no code but those of a single unit does not report CanvasOverflow. -/
theorem completeCommand_ne_canvasOverflow {s t : State} {r : Perf State}
    (hok : ∀ u, r = .ok u → u.status.errCode = s.status.errCode)
    (hraised : ∀ e, r = .error (.raised e) → e.code ∈ singleUnitCodes) (hs : s.status.errCode ≠ 7)
    (h : completeCommand s r = .next t) : t.status.errCode ≠ 7 := by
  rcases completeCommand_errCode hok h with ht | ⟨e, he, ht⟩
  · rwa [ht]
  · have hnumber : ∀ c ∈ singleUnitCodes, c.number ≠ 7 := by decide
    rw [ht]
    exact hnumber e.code (hraised e he)

/-- Settles O29: an oversized grid fails the second grid check, and RENDER and META, which make no grid check, raise
other codes only and leave ERRCODE alone when they succeed. -/
theorem canvasOverflowIsReported : Obligations.CanvasOverflowIsReported := by
  intro s msub mgrid
  refine ⟨fun hready hcnt hcap => ?compose, fun hready hcnt hcap => ?metaGrid, fun hs t ht => ?others⟩
  case compose => exact execCompose_of_checkGrid_error hready (checkGrid_overflow hcnt hcap)
  case metaGrid => exact execMetaGrid_of_checkGrid_error msub mgrid hready (checkGrid_overflow hcnt hcap)
  case others =>
    rcases ht with hrender | hmeta
    · exact completeCommand_ne_canvasOverflow (fun u hu => storeImage_errCode (renderWrites_ok hu).2)
        (fun e he => renderWrites_code he) hs hrender
    · refine completeCommand_ne_canvasOverflow (fun u hu => ?_) (fun e he => metaTileWrites_code he) hs hmeta
      obtain ⟨-, bg, hstore⟩ := metaTileWrites_ok hu
      exact storeImage_errCode hstore

end Sys2Proof.Machine
end

section
/-! An invalid command word (R95), and the host's write to STATUS (R101). -/

namespace Sys2Proof.Machine

open Sys2Proof

theorem perform_of_not_validWord {s : State} (h : ¬ validWord s.latch.w) :
    perform s = .next (errorCompletion (badCommandError s) s) := by
  unfold perform
  cases hd : decode s.latch.w with
  | ok i => exact absurd (decode_ok hd).1 h
  | error r => rfl

/-- Settles O30: a word that is not valid does not decode, so no command's checks are made; and only a valid image
command's acceptance clears OUTV. -/
theorem badCommandIsReported : Obligations.BadCommandIsReported := by
  intro s
  refine ⟨fun hw => ?_, fun v hv => Status_accept_outv_of_not_imageWord s.status fun himage => hv himage.1⟩
  rw [perform_of_not_validWord hw, badCommandError, errorCompletion_at_offset]
  rfl

/-- Settles O40: the word at 0x004 is STATUS, whose write is the acknowledge; and a CMD write while BUSY = 0 is an
acceptance, whatever DONE is. -/
theorem statusWriteAcknowledges : Obligations.StatusWriteAcknowledges := by
  intro s v b hr hb
  constructor
  · rw [hostWrite_reg hr (by omega), slotAt_status (by omega), writeSlot_status]
    rfl
  · intro hidle
    obtain ⟨outv, haccept, -, -⟩ := (cmdWriteIsAcceptance s v b hr hb).2 hidle
    exact ⟨_, haccept, rfl, rfl, rfl, rfl, rfl, rfl⟩

end Sys2Proof.Machine
end

section
/-! Where an error points (R97, R98). -/

namespace Sys2Proof.Machine

open Sys2Proof

/-- Where R98 allows an error's address to stand: OFFSET for an error that is not about a ROM range; for a range error
OFFSET, or at most ROMLEN, or at most the start of the last sub-tile. -/
def addressPlaced (s : State) (e : CmdError) : Prop :=
  (e.code ≠ .outOfRange → e.addr = s.argOff) ∧
  (e.code = .outOfRange → e.addr = s.argOff ∨ e.addr ≤ s.argLen ∨ e.addr ≤ 0x14ED26)

theorem addressPlaced_of_offset {s : State} {e : CmdError} (h : e.addr = s.argOff) : addressPlaced s e :=
  ⟨fun _ => h, fun _ => .inl h⟩

theorem addressPlaced_of_range {s : State} {a : Nat} {info : Word}
    (h : a = s.argOff ∨ a ≤ s.argLen ∨ a ≤ 0x14ED26) : addressPlaced s ⟨.outOfRange, a, info⟩ :=
  ⟨fun hcode => absurd rfl hcode, fun _ => h⟩

/-- An address so placed fits 32 bits, as OFFSET and ROMLEN do. -/
theorem addr_lt_of_addressPlaced {s : State} {e : CmdError} (h : addressPlaced s e) : e.addr < 2 ^ 32 := by
  have hoff : s.argOff < 2 ^ 32 := s.latch.off.isLt
  have hlen : s.argLen < 2 ^ 32 := s.latch.len.isLt
  by_cases hcode : e.code = .outOfRange
  · have := h.2 hcode
    omega
  · have := h.1 hcode
    omega

/-- A range of a run of equal ranges is reached only when the one before it passed, so it starts where the run starts
or at most at ROMLEN. -/
theorem start_of_reached_range {base size len k : Nat} (h : ∀ j, j < k → base + size * j + size ≤ len) :
    base + size * k = base ∨ base + size * k ≤ len := by
  cases k with
  | zero => exact .inl rfl
  | succ j =>
    rw [Nat.mul_succ, ← Nat.add_assoc]
    exact .inr (h j (Nat.lt_succ_self j))

/-- The last sub-tile starts at 0x14ED26 (R75). -/
theorem subOff_le {s : State} {d k t : Nat} (h : subOff s d k = .ok t) : t ≤ 0x14ED26 := by
  obtain ⟨index, -, h⟩ := perf_bind_ok.mp h
  have hindex := index.isLt
  simp only [perf_pure, Except.ok.injEq, subTileOff, wallBase, tileBytes] at h
  omega

/-- The errors of a meta-tile whose descriptor starts at OFFSET or at most at ROMLEN. -/
theorem addressPlaced_of_metaRaises {s : State} {m d : Nat} {e : CmdError} (hd : d = s.argOff ∨ d ≤ s.argLen)
    (h : metaRaises s m d e) : addressPlaced s e := by
  obtain ⟨k, -, hpassed, rfl | ⟨t, ht, rfl⟩⟩ := h
  · have hfield := start_of_reached_range hpassed
    exact addressPlaced_of_range (by omega)
  · exact addressPlaced_of_range (.inr (.inr (subOff_le ht)))

theorem addressPlaced_of_renderWrites {s : State} {e : CmdError} (h : renderWrites s = .error (.raised e)) :
    addressPlaced s e := by
  rcases renderWrites_raised h with h | rfl
  · exact addressPlaced_of_offset (checkPreconditions_raised h).2
  · exact addressPlaced_of_offset rfl

theorem addressPlaced_of_composeWrites {s : State} {e : CmdError} (h : composeWrites s = .error (.raised e)) :
    addressPlaced s e := by
  rcases composeWrites_raised h with h | h | ⟨k, -, hpassed, rfl⟩
  · exact addressPlaced_of_offset (checkPreconditions_raised h).2
  · exact addressPlaced_of_offset (checkGrid_raised h).2
  · exact addressPlaced_of_range ((start_of_reached_range hpassed).imp_right .inl)

theorem addressPlaced_of_metaTileWrites {s : State} {msub : Bool} {e : CmdError}
    (h : metaTileWrites msub s = .error (.raised e)) : addressPlaced s e := by
  rcases metaTileWrites_raised h with h | h
  · exact addressPlaced_of_offset (checkPreconditions_raised h).2
  · exact addressPlaced_of_metaRaises (.inl rfl) h

theorem addressPlaced_of_metaGridWrites {s : State} {msub mgrid : Bool} {e : CmdError}
    (h : metaGridWrites msub mgrid s = .error (.raised e)) : addressPlaced s e := by
  rcases metaGridWrites_raised h with h | h | ⟨m, -, hpassed, h⟩
  · exact addressPlaced_of_offset (checkPreconditions_raised h).2
  · exact addressPlaced_of_offset (checkGrid_raised h).2
  · exact addressPlaced_of_metaRaises (start_of_reached_range hpassed) h

/-- Settles O36, command by command: each error is raised at OFFSET, at a range reached after one that passed, or at a
sub-tile. -/
theorem errorAddressesFit : Obligations.ErrorAddressesFit := by
  intro s e msub mgrid h
  have hplaced : addressPlaced s e := by
    rcases h with h | h | h | h | rfl
    · exact addressPlaced_of_renderWrites h
    · exact addressPlaced_of_composeWrites h
    · exact addressPlaced_of_metaTileWrites h
    · exact addressPlaced_of_metaGridWrites h
    · exact addressPlaced_of_offset rfl
  exact ⟨addr_lt_of_addressPlaced hplaced, hplaced⟩

end Sys2Proof.Machine
end

section
/-! A command's result is a function of its inputs (R118): what each part of a perform step reads, and the end it comes
to over two states that agree on that. -/

namespace Sys2Proof.Machine

open Sys2Proof

/-! ### What a command reads -/

/-- The two states agree on the inputs of R118: the latch, PAL, TBL, TBLV, the ROM and the configuration. -/
structure SameInputs (s s' : State) : Prop where
  latch : s'.latch = s.latch
  pal : s'.pal = s.pal
  tbl : s'.tbl = s.tbl
  rom : s'.rom = s.rom
  params : s'.params = s.params
  tblv : s'.status.tblv = s.status.tblv

namespace SameInputs

section Reads

variable {s s' : State} (h : SameInputs s s')
include h

theorem argOff_eq : s'.argOff = s.argOff := by simp only [State.argOff, h.latch]

theorem argCnt_eq : s'.argCnt = s.argCnt := by simp only [State.argCnt, h.latch]

theorem argLen_eq : s'.argLen = s.argLen := by simp only [State.argLen, h.latch]

theorem argPalCnt_eq : s'.argPalCnt = s.argPalCnt := by simp only [State.argPalCnt, h.latch]

theorem romByte_eq (a : Nat) : romByte s' a = romByte s a := by simp only [romByte, h.params, h.rom]

theorem palColour_eq (n : Nat) : palColour s' n = palColour s n := palColour_congr (by rw [h.pal])

theorem tblEntry_eq (i : BitVec 10) : tblEntry s' i = tblEntry s i := by simp only [tblEntry, h.tbl]

theorem nib_eq (off : Nat) (j : BitVec 10) : nib s' off j = nib s off j := by simp only [nib, h.romByte_eq]

theorem subOff_eq (d k : Nat) : subOff s' d k = subOff s d k := by
  simp only [subOff, subIndex, romField, h.romByte_eq]

/-! ### The checks -/

theorem checkPreconditions_eq : checkPreconditions s' = checkPreconditions s := by
  simp only [checkPreconditions, h.argLen_eq, h.argOff_eq, h.argPalCnt_eq, h.tblv]

theorem checkGrid_eq (cw ch : Nat) : checkGrid s' cw ch = checkGrid s cw ch := by
  simp only [checkGrid, h.argCnt_eq, h.argOff_eq, h.params]

theorem checkRange_eq (a n : Nat) (info : Word) : checkRange s' a n info = checkRange s a n info := by
  simp only [checkRange, h.argLen_eq]

theorem checkNibbles_eq (off : Nat) (info : Word) : checkNibbles s' off info = checkNibbles s off info := by
  simp only [checkNibbles, h.nib_eq, h.argPalCnt_eq]

theorem checkMeta_eq (m d : Nat) : checkMeta s' m d = checkMeta s m d := by
  simp only [checkMeta, h.checkRange_eq, h.subOff_eq]

theorem checkMetaNibbles_eq (m d : Nat) : checkMetaNibbles s' m d = checkMetaNibbles s m d := by
  simp only [checkMetaNibbles, h.subOff_eq, h.checkNibbles_eq]

/-! ### The images -/

theorem decodeTile_eq (off : Nat) : decodeTile s' off = decodeTile s off := by
  funext i
  simp only [decodeTile, h.nib_eq, h.tblEntry_eq, h.palColour_eq]

theorem subTile_eq (d k : Nat) : subTile s' d k = subTile s d k := by
  funext i
  simp only [subTile, h.subOff_eq, h.decodeTile_eq]

theorem composeImage_eq (bg : Word) : composeImage s' bg = composeImage s bg := by
  simp only [composeImage, h.argCnt_eq, h.argOff_eq, h.decodeTile_eq]

theorem metaImage_eq (bg : Word) (d : Nat) (msub : Bool) : metaImage s' bg d msub = metaImage s bg d msub := by
  simp only [metaImage, h.subTile_eq]

theorem metaGridImage_eq (bg : Word) (msub mgrid : Bool) :
    metaGridImage s' bg msub mgrid = metaGridImage s bg msub mgrid := by
  simp only [metaGridImage, h.argCnt_eq, h.argOff_eq, h.metaImage_eq]

end Reads

end SameInputs

/-! ### The end a command comes to -/

/-- One image stands in `t`, reached from `s`, and in `t'`, reached from `s'`: its size is the same, and each canvas
word holds one colour in both or is in each what it was before. -/
structure SameImage (s s' t t' : State) : Prop where
  outW : t'.outW = t.outW
  outH : t'.outH = t.outH
  canvas : ∀ a, Words.read t'.canvas a = Words.read t.canvas a ∨
    (Words.read t.canvas a = Words.read s.canvas a ∧ Words.read t'.canvas a = Words.read s'.canvas a)

/-- The writes of command `i` that lead from `s` to `t` and from `s'` to `t'` leave one result, and ERR as it was. -/
structure SameResult (i : Instr) (s s' t t' : State) : Prop where
  tbl : t'.tbl = t.tbl
  err_left : t.status.err = s.status.err
  err_right : t'.status.err = s'.status.err
  image : i ≠ .build → SameImage s s' t t'

/-- The perform step of command `i` comes to one end from `s` and from `s'`: the same stop, or one result. -/
inductive SameEnd (i : Instr) (s s' : State) : Perf State → Perf State → Prop where
  | stopped (e : Stop) : SameEnd i s s' (.error e) (.error e)
  | written {t t' : State} (hres : SameResult i s s' t t') : SameEnd i s s' (.ok t) (.ok t')

/-- What comes first and is the same in both decides which continuation is reached, in both alike. -/
theorem SameEnd.bind {α : Type} {i : Instr} {s s' : State} {x : Perf α} {f f' : α → Perf State}
    (hf : ∀ a, SameEnd i s s' (f a) (f' a)) : SameEnd i s s' (x >>= f) (x >>= f') := by
  cases x with
  | error e => exact .stopped e
  | ok a => exact hf a

/-- A run of words written over two canvases: the words of the run are the same, the others are kept. -/
theorem read_storeRun_same_or_kept (ws : List Word) (m m' : Words) (a : Nat) :
    Words.read (Words.storeRun ws m') a = Words.read (Words.storeRun ws m) a ∨
    (Words.read (Words.storeRun ws m) a = Words.read m a ∧ Words.read (Words.storeRun ws m') a = Words.read m' a) := by
  rw [Words.read_storeRun, Words.read_storeRun]
  by_cases ha : a < ws.length
  · left; rw [dif_pos ha, dif_pos ha]
  · right; rw [dif_neg ha, dif_neg ha]; exact ⟨rfl, rfl⟩

/-- BUILD writes one table over any two states, and no image. -/
theorem buildWrites_sameEnd (s s' : State) : SameEnd .build s s' (buildWrites s) (buildWrites s') :=
  .written ⟨rfl, rfl, rfl, fun hi => absurd rfl hi⟩

namespace SameInputs

section Commands

variable {s s' : State} (h : SameInputs s s')
include h

/-- One image is stored over both canvases, or over neither. -/
theorem storeImage_sameEnd (i : Instr) (W H : Nat) (img : Image) :
    SameEnd i s s' (storeImage W H img s) (storeImage W H img s') := by
  refine .bind fun ws => ?_
  rw [h.params]
  by_cases hcap : W * H ≤ s.params.canvasCap
  · rw [if_pos hcap, if_pos hcap]
    exact .written ⟨h.tbl, rfl, rfl, fun _ => ⟨rfl, rfl, read_storeRun_same_or_kept ws s.canvas s'.canvas⟩⟩
  · rw [if_neg hcap, if_neg hcap]
    exact .stopped _

theorem renderWrites_sameEnd : SameEnd .render s s' (renderWrites s) (renderWrites s') := by
  simp only [renderWrites, h.checkPreconditions_eq, h.checkRange_eq, h.checkNibbles_eq, h.decodeTile_eq, h.argOff_eq]
  exact .bind fun _ => .bind fun _ => .bind fun _ => h.storeImage_sameEnd _ _ _ _

theorem composeWrites_sameEnd : SameEnd .compose s s' (composeWrites s) (composeWrites s') := by
  simp only [composeWrites, h.checkPreconditions_eq, h.checkGrid_eq, h.checkRange_eq, h.checkNibbles_eq,
    h.palColour_eq, h.composeImage_eq, h.argCnt_eq, h.argOff_eq]
  exact .bind fun _ => .bind fun _ => .bind fun _ => .bind fun _ => .bind fun _ => h.storeImage_sameEnd _ _ _ _

theorem metaTileWrites_sameEnd (msub : Bool) :
    SameEnd (.metaTile msub) s s' (metaTileWrites msub s) (metaTileWrites msub s') := by
  simp only [metaTileWrites, h.checkPreconditions_eq, h.checkMeta_eq, h.checkMetaNibbles_eq, h.palColour_eq,
    h.metaImage_eq, h.argOff_eq]
  exact .bind fun _ => .bind fun _ => .bind fun _ => .bind fun _ => h.storeImage_sameEnd _ _ _ _

theorem metaGridWrites_sameEnd (msub mgrid : Bool) :
    SameEnd (.metaGrid msub mgrid) s s' (metaGridWrites msub mgrid s) (metaGridWrites msub mgrid s') := by
  simp only [metaGridWrites, h.checkPreconditions_eq, h.checkGrid_eq, h.checkMeta_eq, h.checkMetaNibbles_eq,
    h.palColour_eq, h.metaGridImage_eq, h.argCnt_eq, h.argOff_eq]
  exact .bind fun _ => .bind fun _ => .bind fun _ => .bind fun _ => .bind fun _ => h.storeImage_sameEnd _ _ _ _

/-- Every command is the completion of a perform step that comes to one end from both states. -/
theorem exec_sameEnd (i : Instr) : ∃ r r', exec i s = completeCommand s r ∧ exec i s' = completeCommand s' r' ∧
    SameEnd i s s' r r' := by
  cases i with
  | build => exact ⟨_, _, rfl, rfl, buildWrites_sameEnd s s'⟩
  | render => exact ⟨_, _, rfl, rfl, h.renderWrites_sameEnd⟩
  | compose => exact ⟨_, _, rfl, rfl, h.composeWrites_sameEnd⟩
  | metaTile msub => exact ⟨_, _, rfl, rfl, h.metaTileWrites_sameEnd msub⟩
  | metaGrid msub mgrid => exact ⟨_, _, rfl, rfl, h.metaGridWrites_sameEnd msub mgrid⟩

end Commands

end SameInputs

/-- Settles O59: both states come to the same stop or to one result, and its completion says which. -/
theorem resultsDependOnlyOnTheInputs : Obligations.ResultsDependOnlyOnTheInputs := by
  intro i s s' hlatch hpal htbl hrom hparams htblv herr herr'
  obtain ⟨r, r', hr, hr', hend⟩ := SameInputs.exec_sameEnd ⟨hlatch, hpal, htbl, hrom, hparams, htblv⟩ i
  rw [hr, hr']
  cases hend with
  | stopped e =>
    cases e with
    | raised e =>
      refine ⟨by simp, fun t ht => ⟨_, rfl, ?_⟩⟩
      cases ht
      have hfail : (errorCompletion e s).status.err = true := rfl
      exact ⟨rfl, fun _ => ⟨rfl, rfl, rfl⟩, fun hok => absurd (hok.symm.trans hfail) Bool.false_ne_true⟩
    | fault f => simp
  | @written u u' hres =>
    refine ⟨by simp, fun t ht => ⟨_, rfl, ?_⟩⟩
    cases ht
    have hok : u.status.err = false := hres.err_left.trans herr
    have hok' : u'.status.err = false := hres.err_right.trans herr'
    refine ⟨hok'.trans hok.symm, fun hfail => absurd (hok.symm.trans hfail) Bool.false_ne_true,
      fun _ => ⟨hres.tbl, fun hi => ?_⟩⟩
    obtain ⟨hW, hH, hcanvas⟩ := hres.image hi
    exact ⟨hW, hH, hcanvas⟩

end Sys2Proof.Machine
end

section
/-! Decode and encode (R51 to R54, R59): a word and its fields determine each other, the commands are the well-formed
fields, and the decoder undoes the encoder. -/

namespace Sys2Proof.Machine

open Sys2Proof

/-! ### A word and its fields -/

/-- A bit of a word as a one-bit field (R51). -/
theorem toNat_ofBool_getLsbD (w : Word) (i : Nat) : (BitVec.ofBool (w.getLsbD i)).toNat = w.toNat / 2 ^ i % 2 := by
  rw [BitVec.getLsbD, Nat.testBit_eq_decide_div_mod_eq]
  rcases Nat.mod_two_eq_zero_or_one (w.toNat / 2 ^ i) with h | h <;> rw [h] <;> rfl

/-- The four fields make up the whole word (R51). -/
theorem toWord_ofWord (w : Word) : (CmdFields.ofWord w).toWord = w := by
  apply BitVec.eq_of_toNat_eq
  simp only [CmdFields.toWord, CmdFields.ofWord, toNat_append_eq_add, toNat_ofBool_getLsbD, BitVec.extractLsb'_toNat,
    Nat.shiftRight_eq_div_pow]
  have := w.isLt
  omega

/-- The encoder writes the fields of the command, which are well formed, and nothing else. -/
theorem encodedFields (i : Instr) : CmdFields.ofWord (encode i) = i.fields ∧ i.wellFormed = true := by
  cases i with
  | build => exact Laws.EncodedFields.build
  | render => exact Laws.EncodedFields.render
  | compose => exact Laws.EncodedFields.compose
  | metaTile msub => exact Laws.EncodedFields.metaTile msub
  | metaGrid msub mgrid => exact Laws.EncodedFields.metaGrid msub mgrid

/-- Well-formed fields are the fields of some command (R54). -/
theorem exists_fields_of_wellFormed {f : CmdFields} (h : f.wellFormed = true) : ∃ i : Instr, i.fields = f := by
  obtain ⟨op, msub, mgrid, reserved⟩ := f
  simp only [CmdFields.wellFormed, CmdFields.opDefined, CmdFields.reservedClear, CmdFields.msubAllowed,
    CmdFields.mgridAllowed, Bool.and_eq_true, Bool.or_eq_true, Bool.not_eq_true', decide_eq_true_eq, beq_iff_eq] at h
  obtain ⟨⟨⟨⟨hlow, hhigh⟩, rfl⟩, hmsub⟩, hmgrid⟩ := h
  have hop : op = 1 ∨ op = 2 ∨ op = 3 ∨ op = 4 ∨ op = 5 := by bv_omega
  have hnoFlags : op ≠ 4 → op ≠ 5 → msub = false ∧ mgrid = false :=
    fun h4 h5 => ⟨(hmsub.resolve_right h5).resolve_right h4, hmgrid.resolve_right h5⟩
  rcases hop with rfl | rfl | rfl | rfl | rfl
  · obtain ⟨rfl, rfl⟩ := hnoFlags (by decide) (by decide)
    exact ⟨.build, rfl⟩
  · obtain ⟨rfl, rfl⟩ := hnoFlags (by decide) (by decide)
    exact ⟨.render, rfl⟩
  · obtain ⟨rfl, rfl⟩ := hnoFlags (by decide) (by decide)
    exact ⟨.compose, rfl⟩
  · obtain rfl : mgrid = false := by simpa using hmgrid
    exact ⟨.metaTile msub, rfl⟩
  · exact ⟨.metaGrid msub mgrid, rfl⟩

/-- A word is some command's encoding exactly when its fields are well formed. -/
theorem exists_encode_iff_wellFormed (w : Word) : (∃ i, encode i = w) ↔ (CmdFields.ofWord w).wellFormed = true := by
  constructor
  · rintro ⟨i, rfl⟩
    rw [(encodedFields i).1]
    exact (encodedFields i).2
  · intro h
    obtain ⟨i, hi⟩ := exists_fields_of_wellFormed h
    exact ⟨i, by rw [encode, hi, toWord_ofWord]⟩

/-! ### The decoder undoes the encoder -/

theorem decode_encode (i : Instr) : decode (encode i) = .ok i := by
  cases i with
  | build | render | compose => rfl
  | metaTile msub => cases msub <;> rfl
  | metaGrid msub mgrid => cases msub <;> cases mgrid <;> rfl

/-- A word is what it holds under a mask, joined with what it holds under the rest. -/
theorem or_and_not_of_and_eq {w mask pat : Word} (h : w &&& mask = pat) : w = pat ||| (w &&& ~~~mask) := by
  rw [← h, ← BitVec.and_or_distrib_left, BitVec.or_not_self, BitVec.and_allOnes]

/-- A word that matches META's row holds META's pattern, its MSUB bit and nothing else (R53, R54). -/
theorem encode_metaTile_of_match {w : Word} (h : w &&& 0xFFFFFFEF = 4) : encode (.metaTile (w.getLsbD 4)) = w := by
  have hflag : w &&& ~~~0xFFFFFFEF = if w.getLsbD 4 then 16 else 0 := BitVec.and_twoPow w 4
  have hw := or_and_not_of_and_eq h
  rw [hflag] at hw
  generalize w.getLsbD 4 = msub at hw ⊢
  rw [hw]
  cases msub <;> rfl

/-- A word that matches METAGRID's row holds METAGRID's pattern, its two flag bits and nothing else (R53, R54). -/
theorem encode_metaGrid_of_match {w : Word} (h : w &&& 0xFFFFFFCF = 5) :
    encode (.metaGrid (w.getLsbD 4) (w.getLsbD 5)) = w := by
  have hmsub : w &&& 0x10 = if w.getLsbD 4 then 0x10 else 0 := BitVec.and_twoPow w 4
  have hmgrid : w &&& 0x20 = if w.getLsbD 5 then 0x20 else 0 := BitVec.and_twoPow w 5
  have hflags : w &&& ~~~0xFFFFFFCF = (w &&& 0x10) ||| (w &&& 0x20) :=
    BitVec.and_or_distrib_left (x := w) (y := 0x10) (z := 0x20)
  have hw := or_and_not_of_and_eq h
  rw [hflags, hmsub, hmgrid] at hw
  generalize w.getLsbD 4 = msub, w.getLsbD 5 = mgrid at hw ⊢
  rw [hw]
  cases msub <;> cases mgrid <;> rfl

/-- A command's encoding is the one word that decodes to it. -/
theorem encode_of_decode {w : Word} {i : Instr} (h : decode w = .ok i) : encode i = w := by
  rcases decode_cases w with ⟨hw, hd⟩ | ⟨hw, hd⟩ | ⟨hw, hd⟩ | ⟨hw, hd⟩ | ⟨hw, hd⟩ | ⟨-, hd⟩ <;>
    rw [hd] at h <;> cases h
  · rw [hw]; rfl
  · rw [hw]; rfl
  · rw [hw]; rfl
  · exact encode_metaTile_of_match hw
  · exact encode_metaGrid_of_match hw

/-- Settles O1: the decoder undoes the encoder by evaluation of the nine encodings, and the encoder undoes the decoder
row by row of R54. -/
theorem decodeInvertsEncode : Obligations.DecodeInvertsEncode :=
  fun _ i => ⟨encode_of_decode, fun h => h ▸ decode_encode i⟩

/-- The valid words are those that decode (R54). -/
theorem exists_decode_iff_validWord (w : Word) : (∃ i, decode w = .ok i) ↔ validWord w := by
  refine ⟨fun ⟨i, h⟩ => (decode_ok h).1, fun hvalid => ?_⟩
  cases hd : decode w with
  | ok i => exact ⟨i, rfl⟩
  | error r => exact absurd hvalid (decode_error hd)

/-- Settles O2: a word decodes exactly when it is an encoding, which is exactly when its fields are well formed. -/
theorem decodeAcceptsExactlyTheValidWords : Obligations.DecodeAcceptsExactlyTheValidWords := by
  intro w
  refine ⟨exists_decode_iff_validWord w, ?_⟩
  rw [← exists_decode_iff_validWord, ← exists_encode_iff_wellFormed]
  exact exists_congr (decodeInvertsEncode w)

/-- Settles O3: the twelve words evaluated. -/
theorem sampleWordsDecode : Obligations.SampleWordsDecode := by
  unfold Obligations.SampleWordsDecode
  decide

end Sys2Proof.Machine
end

section
/-! The engine's turn and the turns of the other agents (R13, R46, R57, R95, R106), and the first command after reset
(R109). -/

namespace Sys2Proof.Machine

open Sys2Proof

theorem step_of_nextTurn {s : State} {t : Turn} (h : s.nextTurn = t) : step s = takeTurn t s.popTurn := by
  rw [← h]; rfl

theorem engineTurn_of_busy {s : State} (h : s.status.busy = true) : engineTurn s = perform s := by
  rw [engineTurn, if_pos h]

theorem engineTurn_of_idle {s : State} (h : s.status.busy = false) : engineTurn s = .next s := by
  rw [engineTurn, h]; rfl

theorem perform_of_decode {s : State} {i : Instr} (h : decode s.latch.w = .ok i) : perform s = exec i s := by
  rw [perform, h]

/-- A step from a busy state whose next turn is the engine's performs the latched word (R57). -/
theorem step_of_engine {s : State} (h : s.nextTurn = .engine) (hbusy : s.status.busy = true) :
    step s = perform s.popTurn :=
  (step_of_nextTurn h).trans (engineTurn_of_busy hbusy)

/-- Settles O4: the engine's turn is the perform step, which O30 gives for an invalid word. -/
theorem stepRunsTheLatchedCommand : Obligations.StepRunsTheLatchedCommand := by
  intro s hturn hbusy
  rw [step_of_engine hturn hbusy]
  exact ⟨fun i hd => perform_of_decode hd, (badCommandIsReported s.popTurn).1⟩

/-- Settles O5: a step is the turn that stands first in the schedule. -/
theorem stepTakesTheTurnsOfTheOtherAgents : Obligations.StepTakesTheTurnsOfTheOtherAgents := by
  intro s
  refine ⟨fun h => ?_, fun t l h => ?_, fun _ => step_of_nextTurn, fun _ _ => step_of_nextTurn,
    fun _ _ => step_of_nextTurn, step_of_nextTurn⟩ <;> simp [State.nextTurn, h]

/-- The latched word of a placed command is its encoding (R56; log 1). -/
theorem withFetchWord_latch (s : State) (i : Instr) :
    (s.withFetchWord 32 (encode i).toNat).latch.w = encode i := by
  show BitVec.ofNat 32 ((encode i).toNat % 2 ^ 32) = encode i
  rw [Nat.mod_eq_of_lt (encode i).isLt, BitVec.ofNat_toNat, BitVec.setWidth_eq]

/-- Settles O6: the placed word is latched, BUSY is set and the schedule is empty, so the step is the engine's. -/
theorem fetchedWordIsRunNext : Obligations.FetchedWordIsRunNext := by
  intro s i
  have hd : decode (s.withFetchWord 32 (encode i).toNat).latch.w = .ok i := by
    rw [withFetchWord_latch, decode_encode]
  exact (stepRunsTheLatchedCommand _ rfl rfl).1 i hd

/-- Settles O7: the engine waits, so only the turn it took is gone. -/
theorem idleEngineWaits : Obligations.IdleEngineWaits :=
  fun _ hturn hidle => (step_of_nextTurn hturn).trans (engineTurn_of_idle hidle)

end Sys2Proof.Machine
end

section
/-! The host's reads and writes of REG and OUT (R15 to R38, R44): what each register answers and stores. -/

namespace Sys2Proof.Machine

open Sys2Proof

/-! ### The STATUS word -/

/-- STATUS as a number: every field at its weight (R17). -/
theorem Status_word_toNat (st : Status) :
    st.word.toNat = st.wlost.toNat * 65536 + st.outv.toNat * 512 + st.tblv.toNat * 256 + st.errCode.toNat * 16 +
      st.err.toNat * 4 + st.done.toNat * 2 + st.busy.toNat := by
  simp only [Status.word, toNat_append_eq_add, BitVec.toNat_ofBool, BitVec.ofNat_eq_ofNat,
    BitVec.toNat_ofNat]
  omega

theorem getLsbD_eq_of_toNat {w : Word} {i : Nat} {b : Bool} (h : w.toNat / 2 ^ i % 2 = b.toNat) : w.getLsbD i = b := by
  rw [BitVec.getLsbD, Nat.testBit_eq_decide_div_mod_eq, h]
  cases b <;> rfl

theorem extractLsb'_eq_of_toNat {w : Word} {n lo : Nat} {x : BitVec n} (h : w.toNat / 2 ^ lo % 2 ^ n = x.toNat) :
    w.extractLsb' lo n = x :=
  BitVec.eq_of_toNat_eq (by rw [BitVec.extractLsb'_toNat, Nat.shiftRight_eq_div_pow, h])

/-- Settles O41: the number STATUS stands for, divided and reduced to each field's place. -/
theorem statusWordLayout : Obligations.StatusWordLayout := by
  intro st
  have hword := Status_word_toNat st
  have hbusy := st.busy.toNat_lt
  have hdone := st.done.toNat_lt
  have herr := st.err.toNat_lt
  have hcode := st.errCode.isLt
  have htblv := st.tblv.toNat_lt
  have houtv := st.outv.toNat_lt
  have hwlost := st.wlost.toNat_lt
  refine ⟨getLsbD_eq_of_toNat ?_, getLsbD_eq_of_toNat ?_, getLsbD_eq_of_toNat ?_, getLsbD_eq_of_toNat ?_,
    extractLsb'_eq_of_toNat ?_, getLsbD_eq_of_toNat ?_, getLsbD_eq_of_toNat ?_, extractLsb'_eq_of_toNat ?_,
    getLsbD_eq_of_toNat ?_, extractLsb'_eq_of_toNat ?_⟩ <;>
    simp only [hword, Bool.toNat_false, BitVec.toNat_ofNat] <;> omega

/-! ### Reads of REG -/

/-- A read of register number `k`: what its slot holds, at each of the word's byte offsets (R35). -/
theorem hostRead_register {s : State} {b k : Nat} {w : Word} (hr : s.inReset = false) (hb : b < 4) (hk : k < 10)
    (hw : readSlot s (slotAt (4 * k)) = some w) : hostRead (.reg (4 * k + b)) s = .next { s with readData := w } := by
  rw [hostRead_reg hr (by omega), slotAt_add (Nat.dvd_mul_right 4 k) hb, hw, deliver_some_eq]

/-- Settles O42: each of the ten registers is the slot at its offset. -/
theorem hostReadsTheRegisters : Obligations.HostReadsTheRegisters := by
  intro s b hr hb
  have hread : ∀ {w : Word} (k : Nat), k < 10 → readSlot s (slotAt (4 * k)) = some w →
      hostRead (.reg (4 * k + b)) s = .next { s with readData := w } := fun k => hostRead_register hr hb
  refine ⟨hread 0 (by decide) rfl, hread 1 (by decide) rfl, hread 2 (by decide) rfl, hread 3 (by decide) ?count,
    hread 4 (by decide) rfl, hread 5 (by decide) ?palCnt, hread 6 (by decide) rfl, hread 7 (by decide) rfl,
    hread 8 (by decide) rfl, hread 9 (by decide) rfl⟩
  case count => rw [BitVec.ofNat_toNat]; rfl
  case palCnt => rw [BitVec.ofNat_toNat]; rfl

theorem hostRead_pal {s : State} {n b : Nat} (hr : s.inReset = false) (hn : n < 256) (hb : b < 4) :
    hostRead (.reg (0x2000 + 4 * n + b)) s = .next (deliver (Words.read s.pal n) s) := by
  rw [hostRead_reg hr (by omega), slotAt_pal_add hn hb]; rfl

/-- Settles O44: the slot of the offset is the entry's, and a read returns the word it holds or a free value. -/
theorem paletteWindowReadsTheEntry : Obligations.PaletteWindowReadsTheEntry := by
  intro s n b hr hn hb
  rw [hostRead_pal hr hn hb]
  refine ⟨fun c hc => ?_, fun hnone => ?_⟩
  · rw [hc, deliver_some_eq]
  · rw [hnone]; rfl

/-! ### Reads of OUT -/

theorem readOut_beyond {s : State} {off : Nat} (h : s.params.canvasCap ≤ off / 4) : readOut s off = some 0 := by
  rw [readOut, if_pos h]

theorem readOut_of_busy {s : State} {off : Nat} (h : off / 4 < s.params.canvasCap) (hb : s.status.busy = true) :
    readOut s off = none := by
  rw [readOut, if_neg (Nat.not_le.mpr h), if_pos hb]

theorem readOut_of_idle {s : State} {off : Nat} (h : off / 4 < s.params.canvasCap) (hb : s.status.busy = false) :
    readOut s off = Words.read s.canvas (off / 4) := by
  rw [readOut, if_neg (Nat.not_le.mpr h), hb]; rfl

theorem hostWrite_out {s : State} {off : Nat} (v : Word) (hr : s.inReset = false) :
    hostWrite (.out off) v s = .next s := by
  simp [hostWrite, hostAccess, hr, placeOf]

/-- Settles O46: beyond the canvas, below it while BUSY = 1, and below it while BUSY = 0. -/
theorem outReadsTheCanvas : Obligations.OutReadsTheCanvas := by
  intro s a b v hr hb
  have hword : (4 * a + b) / 4 = a := by omega
  refine ⟨fun hbusy ha => ?_, fun c hidle ha hc => ?_, fun hidle ha hnone => ?_, fun ha => ?_, hostWrite_out v hr⟩ <;>
    rw [hostRead_out hr]
  · rw [readOut_of_busy (by rwa [hword]) hbusy]; rfl
  · rw [readOut_of_idle (by rwa [hword]) hidle, hword, hc, deliver_some_eq]
  · rw [readOut_of_idle (by rwa [hword]) hidle, hword, hnone]; rfl
  · rw [readOut_beyond (by rwa [hword]), deliver_some_eq]

/-! ### No read has a side effect -/

/-- A delivered word changes the model's two read fields alone (R44). -/
theorem deliver_frame (w : Option Word) (s : State) :
    deliver w s = { s with readData := (deliver w s).readData, freeCount := (deliver w s).freeCount } := by
  cases w <;> rfl

theorem hostRead_next {s t : State} {a : Target} (h : hostRead a s = .next t) :
    s.inReset = false ∧ ∃ w, t = deliver w s := by
  obtain ⟨hr, ⟨off, rfl⟩ | ⟨off, rfl⟩⟩ := hostAccess_next h
  · exact ⟨hr, _, rfl⟩
  · exact ⟨hr, _, rfl⟩

/-- Settles O47: wherever a read leads, it delivers a word. -/
theorem hostReadsHaveNoSideEffect : Obligations.HostReadsHaveNoSideEffect := by
  intro s t a h
  obtain ⟨-, w, rfl⟩ := hostRead_next h
  exact deliver_frame w s

/-! ### Writes -/

/-- A write to register number `k`, at each of the word's byte offsets (R35). -/
theorem hostWrite_register {s : State} {b k : Nat} {slot : Slot} {v : Word} (hr : s.inReset = false) (hb : b < 4)
    (hk : k < 10) (hslot : slotAt (4 * k) = slot) : hostWrite (.reg (4 * k + b)) v s = .next (writeSlot v s slot) := by
  rw [hostWrite_reg hr (by omega), slotAt_add (Nat.dvd_mul_right 4 k) hb, hslot]

/-- What an input word other than CMD stores while no command runs (R18 to R21, R26). -/
theorem writeSlot_argument_of_idle {s : State} (v : Word) (h : s.status.busy = false) :
    writeSlot v s .offset = { s with offset := v } ∧
    writeSlot v s .count = { s with count := v.extractLsb' 0 16 } ∧
    writeSlot v s .romLen = { s with romLen := BitVec.ofNat 32 (min v.toNat s.params.romCap) } ∧
    writeSlot v s .palCnt = { s with palCnt := BitVec.ofNat 9 (min v.toNat 256) } ∧
    ∀ n, writeSlot v s (.pal n) = { s with pal := Words.write s.pal n v } := by
  have hcount : v.extractLsb' 0 16 = v.setWidth 16 := rfl
  rw [hcount]
  exact ⟨unlessBusy_of_idle s _ h, unlessBusy_of_idle s _ h, unlessBusy_of_idle s _ h, unlessBusy_of_idle s _ h,
    fun n => unlessBusy_of_idle s _ h⟩

/-- Settles O39: each offset leads to its register, which stores the value while no command runs. -/
theorem argumentWritesAreStored : Obligations.ArgumentWritesAreStored := by
  intro s v b hr hidle hb
  obtain ⟨hoffset, hcount, hromLen, hpalCnt, hpal⟩ := writeSlot_argument_of_idle v hidle
  refine ⟨?_, ?_, ?_, ?_, fun n hn => ⟨Words.write s.pal n v, ?_, Words.read_write_self _ _ _,
    fun m hm => Words.read_write_of_ne _ v hm⟩⟩
  · exact (hostWrite_register (k := 2) hr hb (by decide) rfl).trans (congrArg _ hoffset)
  · exact (hostWrite_register (k := 3) hr hb (by decide) rfl).trans (congrArg _ hcount)
  · exact (hostWrite_register (k := 4) hr hb (by decide) rfl).trans (congrArg _ hromLen)
  · exact (hostWrite_register (k := 5) hr hb (by decide) rfl).trans (congrArg _ hpalCnt)
  · rw [hostWrite_reg hr (by omega), slotAt_pal_add hn hb, hpal]

/-- Everything a host write that answers a next state can have done. -/
theorem hostWrite_next {s t : State} {a : Target} {v : Word} (h : hostWrite a v s = .next t) :
    s.inReset = false ∧ ((∃ off, t = writeSlot v s (slotAt off)) ∨ t = s) := by
  obtain ⟨hr, ⟨off, rfl⟩ | ⟨off, rfl⟩⟩ := hostAccess_next h
  · exact ⟨hr, .inl ⟨off, rfl⟩⟩
  · exact ⟨hr, .inr rfl⟩

/-! ### Host turns while a command runs -/

/-- With neither a completion nor an error to report, an acknowledge can clear nothing but WLOST (R101). -/
theorem acknowledge_of_clear {s : State} (v : Word) (hdone : s.status.done = false) (herr : s.status.err = false)
    (hcode : s.status.errCode = 0) :
    acknowledge v s = { s with status := { s.status with wlost := (acknowledge v s).status.wlost } } := by
  simp only [acknowledge, Status.writeOneClear, hdone, herr, hcode, Bool.false_and, ite_self]

/-- While a command runs a write to REG changes nothing but WLOST (R37, R111). -/
theorem writeSlot_of_busy {s : State} (v : Word) (k : Slot) (hbusy : s.status.busy = true)
    (hdone : s.status.done = false) (herr : s.status.err = false) (hcode : s.status.errCode = 0) :
    ∃ wlost, writeSlot v s k = { s with status := { s.status with wlost := wlost } } := by
  rcases writeSlot_cases v s k with h | h | ⟨-, h⟩ | ⟨hidle, -⟩
  · exact ⟨s.status.wlost, h⟩
  · exact ⟨_, h.trans (acknowledge_of_clear v hdone herr hcode)⟩
  · exact ⟨true, h⟩
  · exact absurd (hbusy.symm.trans hidle) Bool.true_eq_false.mp

/-- Settles O48: a read delivers a word, and a write changes at most WLOST. -/
theorem hostTurnsWhileBusyChangeOnlyWlost : Obligations.HostTurnsWhileBusyChangeOnlyWlost := by
  rintro s t hbusy hdone herr hcode ⟨a, hread | ⟨v, hwrite⟩⟩ hstep
  · rw [step_of_nextTurn hread] at hstep
    obtain ⟨-, w, rfl⟩ := hostRead_next hstep
    exact (deliver_frame w s.popTurn).trans (by rw [deliver_status]; rfl)
  · rw [step_of_nextTurn hwrite] at hstep
    obtain ⟨-, ⟨off, rfl⟩ | rfl⟩ := hostWrite_next hstep
    · obtain ⟨wlost, h⟩ := writeSlot_of_busy (s := s.popTurn) v (slotAt off) hbusy hdone herr hcode
      rw [h]; rfl
    · rfl

/-! ### System addresses -/

/-- An access is decided by the place its target names (R34). -/
theorem hostAccess_congr {s : State} {a b : Target} (h : placeOf s.params a = placeOf s.params b)
    (onReg onOut : Nat → State) : hostAccess a s onReg onOut = hostAccess b s onReg onOut := by
  simp only [hostAccess, h]

theorem hostAccess_of_rom {s : State} {a : Target} (hr : s.inReset = false) (h : placeOf s.params a = .rom)
    (onReg onOut : Nat → State) : hostAccess a s onReg onOut = .refused .hostAccessToRom := by
  simp [hostAccess, hr, h]

theorem hostAccess_of_elsewhere {s : State} {a : Target} (hr : s.inReset = false)
    (h : placeOf s.params a = .elsewhere) (onReg onOut : Nat → State) :
    hostAccess a s onReg onOut = .refused .addressNotOfThisBlock := by
  simp [hostAccess, hr, h]

/-- An offset inside REG, from REG's base. -/
theorem placeOf_regBase {p : Params} {off : Nat} (h : off < 0x4000) :
    placeOf p (.sys (p.regBase + off)) = placeOf p (.reg off) := by
  have hin : p.regBase ≤ p.regBase + off ∧ p.regBase + off < p.regBase + regBytes := by unfold regBytes; omega
  simp only [placeOf]
  rw [if_pos hin, if_pos (show off < regBytes from h), Nat.add_sub_cancel_left]

/-- An offset inside the canvas, from OUT's base, which REG does not overlap. -/
theorem placeOf_outBase {p : Params} {off : Nat} (hp : p.legal) (h : off < 4 * p.canvasCap) :
    placeOf p (.sys (p.outBase + off)) = placeOf p (.out off) := by
  obtain ⟨-, -, -, hregOut, -, -⟩ := hp
  have hreg : ¬ (p.regBase ≤ p.outBase + off ∧ p.outBase + off < p.regBase + regBytes) := by omega
  have hout : p.outBase ≤ p.outBase + off ∧ p.outBase + off < p.outBase + 4 * p.canvasCap := by omega
  simp only [placeOf]
  rw [if_neg hreg, if_pos hout, Nat.add_sub_cancel_left]

/-- An address inside the ROM space, which neither REG nor OUT overlaps. -/
theorem placeOf_romBase {p : Params} {a : Nat} (hp : p.legal) (h : a < p.romCap) :
    placeOf p (.sys (p.romBase + a)) = .rom := by
  obtain ⟨-, -, -, -, hregRom, houtRom⟩ := hp
  have hreg : ¬ (p.regBase ≤ p.romBase + a ∧ p.romBase + a < p.regBase + regBytes) := by omega
  have hout : ¬ (p.outBase ≤ p.romBase + a ∧ p.romBase + a < p.outBase + 4 * p.canvasCap) := by omega
  have hrom : p.romBase ≤ p.romBase + a ∧ p.romBase + a < p.romBase + p.romCap := by omega
  simp only [placeOf]
  rw [if_neg hreg, if_neg hout, if_pos hrom]

theorem placeOf_elsewhere {p : Params} {a : Nat} (hreg : a < p.regBase ∨ p.regBase + 0x4000 ≤ a)
    (hout : a < p.outBase ∨ p.outBase + 4 * p.canvasCap ≤ a) (hrom : a < p.romBase ∨ p.romBase + p.romCap ≤ a) :
    placeOf p (.sys a) = .elsewhere := by
  have hnotReg : ¬ (p.regBase ≤ a ∧ a < p.regBase + regBytes) := by unfold regBytes; omega
  simp only [placeOf]
  rw [if_neg hnotReg, if_neg (by omega), if_neg (by omega)]

/-- Settles O49: an access is decided by its place, and the bases put each address in one place. -/
theorem systemAddressesReachTheSpaces : Obligations.SystemAddressesReachTheSpaces := by
  intro s v hr hp
  refine ⟨fun off h => ?reg, fun off h => ?out, fun a h => ?rom, fun a hreg hout hrom => ?elsewhere⟩
  case reg => exact ⟨hostAccess_congr (placeOf_regBase h) _ _, hostAccess_congr (placeOf_regBase h) _ _⟩
  case out => exact ⟨hostAccess_congr (placeOf_outBase hp h) _ _, hostAccess_congr (placeOf_outBase hp h) _ _⟩
  case rom => exact ⟨hostAccess_of_rom hr (placeOf_romBase hp h) _ _, hostAccess_of_rom hr (placeOf_romBase hp h) _ _⟩
  case elsewhere =>
    have hplace := placeOf_elsewhere hreg hout hrom
    exact ⟨hostAccess_of_elsewhere hr hplace _ _, hostAccess_of_elsewhere hr hplace _ _⟩

end Sys2Proof.Machine
end

section
/-! Reset (R33, R108, R109) and the ROM's owner (R39, R113). -/

namespace Sys2Proof.Machine

open Sys2Proof

/-- Settles O50: every register of the reset state is written out. -/
theorem resetRegistersAreZero : Obligations.ResetRegistersAreZero :=
  ⟨rfl, by decide, rfl, rfl, rfl, rfl, rfl, rfl, rfl, rfl, rfl, fun _ => rfl, fun _ => rfl⟩

/-- While reset is asserted no host access has a meaning (R108; U7). -/
theorem hostAccess_of_inReset {s : State} (h : s.inReset = true) (a : Target) (onReg onOut : Nat → State) :
    hostAccess a s onReg onOut = .refused .hostAccessDuringReset := by
  rw [hostAccess, if_pos h]

/-- Settles O51: the turn leaves the reset state but for what is not the block's; its engine is idle, so it waits. -/
theorem resetAbandonsTheCommand : Obligations.ResetAbandonsTheCommand := by
  intro s hturn
  refine ⟨applyReset s.popTurn, step_of_nextTurn hturn, rfl, rfl, rfl, rfl, rfl, rfl, rfl, rfl, rfl, rfl, rfl, rfl,
    Words.read_nil, Words.read_nil, engineTurn_of_idle rfl, fun a v => ?_⟩
  exact ⟨hostAccess_of_inReset rfl a _ _, hostAccess_of_inReset rfl a _ _⟩

/-- STATUS after the failure of the first command after reset: OUTV, which acceptance can only clear, is 0. -/
theorem failed_first_command_status (n : Nat) (addr info : Word) :
    (failedWith (State.reset.withFetchWord 32 n) 1 addr info).status.word = 0x00000016 := by
  have houtv : (State.reset.withFetchWord 32 n).status.outv = false := rfl
  have hstatus : (failedWith (State.reset.withFetchWord 32 n) 1 addr info).status =
      ⟨false, true, true, 1, false, false, false⟩ := congrArg (Status.mk false true true 1 false · false) houtv
  rw [hstatus]; decide

/-- Settles O52: the placed command is the one that runs; BUILD succeeds, and the others find ROMLEN 0. -/
theorem firstCommandAfterReset : Obligations.FirstCommandAfterReset := by
  refine ⟨?build, fun i hi => ?image⟩
  case build => exact ⟨_, fetchedWordIsRunNext State.reset .build, by decide⟩
  case image =>
    have hfail := (inputMissingIsReported (State.reset.withFetchWord 32 (encode i).toNat) i rfl).1 hi
    exact ⟨_, (fetchedWordIsRunNext State.reset i).trans hfail, failed_first_command_status _ _ _, rfl, rfl⟩

/-- A ROM byte that changes while a command runs (R113). -/
theorem romSet_of_busy {s : State} {a : Nat} {b : Byte} (ha : a < s.params.romCap) (hbusy : s.status.busy = true)
    (hb : Memory.read s.rom a ≠ b) : romSet a b s = .refused .romChangedWhileBusy := by
  rw [romSet, if_neg (Nat.not_le.mpr ha), if_pos ⟨hbusy, hb⟩]

/-- Everything the setting of a ROM byte that answers a next state can have done. -/
theorem romSet_next {s t : State} {a : Nat} {b : Byte} (h : romSet a b s = .next t) :
    a < s.params.romCap ∧ t = { s with rom := Memory.write s.rom a b } := by
  unfold romSet at h
  split_ifs at h with hcap hchange
  exact ⟨Nat.not_le.mp hcap, (Host.Outcome.next.inj h).symm⟩

/-- A ROM byte set while no command runs (R39). -/
theorem romSet_of_idle {s : State} {a : Nat} (b : Byte) (ha : a < s.params.romCap) (hidle : s.status.busy = false) :
    romSet a b s = .next { s with rom := Memory.write s.rom a b } := by
  rw [romSet, if_neg (Nat.not_le.mpr ha), if_neg (by simp [hidle])]

/-- Settles O53: the two cases of BUSY, and the ROM's read after a write. -/
theorem romChangesOnlyWhileIdle : Obligations.RomChangesOnlyWhileIdle := by
  intro s a b ha
  exact ⟨romSet_of_busy ha, fun hidle => ⟨_, romSet_of_idle b ha hidle, Memory.read_write_self _ _ _,
    fun c hc => Memory.read_write_of_ne _ b hc⟩⟩

end Sys2Proof.Machine
end

section
/-! What a command can end in (R86, R87, R99, R100): one inversion of the perform step, and the statements that follow
from it. -/

namespace Sys2Proof.Machine

open Sys2Proof

/-! ### The perform step of any command -/

/-- The checks and writes of a command (R80 to R85). -/
def commandWrites : Instr → State → Perf State
  | .build => buildWrites
  | .render => renderWrites
  | .compose => composeWrites
  | .metaTile msub => metaTileWrites msub
  | .metaGrid msub mgrid => metaGridWrites msub mgrid

/-- Every command is the completion of its checks and writes (R57). -/
theorem exec_eq_completeCommand (i : Instr) (s : State) : exec i s = completeCommand s (commandWrites i s) := by
  cases i <;> rfl

/-- The codes of a grid command (R87). -/
def gridCodes : List ErrCode := singleUnitCodes ++ [.countZero, .canvasOverflow]

/-- The codes a command can raise (R87). -/
def commandCodes : Instr → List ErrCode
  | .build => []
  | .render | .metaTile _ => singleUnitCodes
  | .compose | .metaGrid _ _ => gridCodes

/-- The errors of a grid command: of a precondition, of a grid check, or of a ROM range. -/
theorem mem_gridCodes {s : State} {cw ch : Nat} {e : CmdError}
    (h : checkPreconditions s = .error (.raised e) ∨ checkGrid s cw ch = .error (.raised e) ∨ e.code = .outOfRange) :
    e.code ∈ gridCodes := by
  rcases h with h | h | h
  · exact List.mem_append_left _ (mem_singleUnitCodes (.inl h))
  · exact List.mem_append_right _ (checkGrid_raised h).1
  · exact List.mem_append_left _ (mem_singleUnitCodes (s := s) (.inr h))

theorem commandWrites_code {i : Instr} {s : State} {e : CmdError} (h : commandWrites i s = .error (.raised e)) :
    e.code ∈ commandCodes i := by
  cases i with
  | build => cases h
  | render => exact renderWrites_code h
  | compose => exact mem_gridCodes ((composeWrites_raised h).imp_right (.imp_right fun ⟨k, _, _, he⟩ => by rw [he]))
  | metaTile => exact metaTileWrites_code h
  | metaGrid =>
    exact mem_gridCodes ((metaGridWrites_raised h).imp_right (.imp_right fun ⟨m, _, _, he⟩ => metaRaises_code he))

/-- The sizes an image can have: at least a pixel, and each side far below what OUTW and OUTH can hold (R7, R73). -/
def imageSize (W H : Nat) : Prop := 0 < W ∧ 0 < H ∧ W ≤ 2048 ∧ H ≤ 262144

/-- A grid of up to 65535 cells, each a tile or a meta-tile. -/
theorem imageSize_grid {cw ch cnt : Nat} (hcnt : cnt ≠ 0) (hlt : cnt < 65536) (hcw : 0 < cw ∧ cw ≤ 128)
    (hch : 0 < ch ∧ ch ≤ 64) : imageSize (gridW cw cnt) (gridH ch cnt) := by
  have hcols := gridCols_le cnt
  have hrows := gridRows_le hlt
  have hrows0 : 0 < gridRows cnt := Nat.lt_of_le_of_lt (Nat.zero_le _) (lt_gridRows (k := 0) (by omega))
  exact ⟨Nat.mul_pos hcw.1 (gridCols_pos hcnt), Nat.mul_pos hch.1 hrows0, Nat.mul_le_mul hcw.2 hcols,
    Nat.mul_le_mul hch.2 hrows⟩

/-- An image command that succeeds has stored an image (R81, R83 to R85). -/
theorem commandWrites_ok {i : Instr} {s t : State} (hi : i ≠ .build) (h : commandWrites i s = .ok t) :
    ∃ W H img, imageSize W H ∧ storeImage W H img s = .ok t := by
  have hcnt : s.argCnt < 65536 := s.latch.cnt.isLt
  cases i with
  | build => exact absurd rfl hi
  | render => exact ⟨_, _, _, ⟨by decide, by decide, by decide, by decide⟩, (renderWrites_ok h).2⟩
  | compose =>
    obtain ⟨-, hne, bg, hstore⟩ := composeWrites_ok h
    exact ⟨_, _, _, imageSize_grid hne hcnt (by decide) (by decide), hstore⟩
  | metaTile =>
    obtain ⟨-, bg, hstore⟩ := metaTileWrites_ok h
    exact ⟨_, _, _, ⟨by decide, by decide, by decide, by decide⟩, hstore⟩
  | metaGrid =>
    obtain ⟨-, hne, bg, hstore⟩ := metaGridWrites_ok h
    exact ⟨_, _, _, imageSize_grid hne hcnt (by decide) (by decide), hstore⟩

/-- What BUILD leaves (R80, R100). -/
def tableDone (s : State) : State :=
  { s with tbl := builtTable, status := { s.status with tblv := true, busy := false, done := true } }

/-- BUILD succeeds in every state (R80). -/
theorem exec_build (s : State) : exec .build s = .next (tableDone s) := rfl

/-- Everything a command that answers a next state can have done. -/
theorem exec_next {i : Instr} {s t : State} (h : exec i s = .next t) :
    (∃ e, e.code ∈ commandCodes i ∧ t = errorCompletion e s) ∨ (i = .build ∧ t = tableDone s) ∨
    (i ≠ .build ∧ ∃ W H ws, imageSize W H ∧ W * H ≤ s.params.canvasCap ∧ ws.length = W * H ∧
      t = imageDone s W H (Words.storeRun ws s.canvas)) := by
  by_cases hi : i = .build
  · subst hi
    exact .inr (.inl ⟨rfl, (Host.Outcome.next.inj h).symm⟩)
  rw [exec_eq_completeCommand] at h
  rcases completeCommand_next h with ⟨u, hu, rfl⟩ | ⟨e, he, rfl⟩
  · obtain ⟨W, H, img, hsize, hstore⟩ := commandWrites_ok hi hu
    obtain ⟨hcap, ws, hlen, -, rfl⟩ := storeImage_ok hstore
    exact .inr (.inr ⟨hi, W, H, ws, hsize, hcap, hlen, rfl⟩)
  · exact .inl ⟨e, commandWrites_code he, rfl⟩

/-- Settles O34: the three ends of a command, and the words a run of words leaves. -/
theorem commandsChangeOnlyTheirResults : Obligations.CommandsChangeOnlyTheirResults := by
  intro i s t h
  rcases exec_next h with ⟨e, -, rfl⟩ | ⟨hi, rfl⟩ | ⟨hi, W, H, ws, -, hcap, hlen, rfl⟩
  · exact .inl ⟨_, _, _, rfl⟩
  · exact .inr (.inl ⟨hi, _, rfl⟩)
  · refine .inr (.inr ⟨hi, W, H, _, rfl, hcap, fun a ha => ?_, fun a ha => ?_⟩) <;> rw [Words.read_storeRun]
    · rw [dif_pos (by omega)]; rfl
    · rw [dif_neg (by omega)]

/-- A command that ends with ERR set, having begun with ERR clear, reports one of its codes. -/
theorem exec_errCode {i : Instr} {s t : State} (hs : s.status.err = false) (ht : t.status.err = true)
    (h : exec i s = .next t) : t.status.errCode ∈ (commandCodes i).map ErrCode.number := by
  rcases exec_next h with ⟨e, he, rfl⟩ | ⟨-, rfl⟩ | ⟨-, W, H, ws, -, -, -, rfl⟩
  · exact List.mem_map_of_mem he
  · exact absurd (hs.symm.trans ht) Bool.false_ne_true
  · exact absurd (hs.symm.trans ht) Bool.false_ne_true

/-- Settles O35: the numbers of each command's codes; BUILD has none. -/
theorem eachCommandReportsOnlyItsCodes : Obligations.EachCommandReportsOnlyItsCodes := by
  intro s t hs ht
  have hsingle : ∀ n ∈ singleUnitCodes.map ErrCode.number, n ∈ [1#4, 2#4, 3#4, 5#4] := by decide
  have hgrid : ∀ n ∈ gridCodes.map ErrCode.number, n ∈ [1#4, 2#4, 3#4, 5#4, 6#4, 7#4] := by decide
  refine ⟨fun h => ?build, fun h => hsingle _ (exec_errCode hs ht h), fun h => hgrid _ (exec_errCode hs ht h),
    fun _ h => hsingle _ (exec_errCode hs ht h), fun _ _ h => hgrid _ (exec_errCode hs ht h), fun e hd h => ?badWord⟩
  case build => exact absurd (exec_errCode hs ht h) List.not_mem_nil
  case badWord =>
    rw [perform_of_not_validWord (decode_error hd)] at h
    cases h; rfl

/-- Everything the perform step of the latched word can leave (R57, R95). -/
theorem perform_next {s t : State} (h : perform s = .next t) :
    (∃ i, exec i s = .next t) ∨ t = errorCompletion (badCommandError s) s := by
  unfold perform at h
  split at h
  · exact .inl ⟨_, h⟩
  · exact .inr (Host.Outcome.next.inj h).symm

/-- A perform step that answers a next state has completed the command (R86). -/
theorem perform_completes {s t : State} (h : perform s = .next t) : t.status.busy = false ∧ t.status.done = true := by
  rcases perform_next h with ⟨i, h⟩ | rfl
  · rcases exec_next h with ⟨e, -, rfl⟩ | ⟨-, rfl⟩ | ⟨-, W, H, ws, -, -, -, rfl⟩ <;> exact ⟨rfl, rfl⟩
  · exact ⟨rfl, rfl⟩

/-! ### The schedule (log 2) -/

theorem writeSlot_schedule (v : Word) (s : State) (k : Slot) : (writeSlot v s k).schedule = s.schedule := by
  rcases writeSlot_cases v s k with h | h | ⟨-, h⟩ | ⟨-, h | h | h | h | h | ⟨n, -, h⟩⟩ <;> rw [h] <;> rfl

/-- No agent but the engine's own command looks at the schedule, and none changes it. -/
theorem takeTurn_schedule {turn : Turn} {s t : State} (hturn : turn ≠ .engine) (h : takeTurn turn s = .next t) :
    t.schedule = s.schedule := by
  cases turn with
  | engine => exact absurd rfl hturn
  | hostRead a =>
    obtain ⟨-, w, rfl⟩ := hostRead_next h
    exact deliver_schedule w s
  | hostWrite a v =>
    obtain ⟨-, ⟨off, rfl⟩ | rfl⟩ := hostWrite_next h
    · exact writeSlot_schedule v s _
    · rfl
  | resetAssert => cases h; rfl
  | resetRelease => cases h; rfl
  | romSet a b =>
    obtain ⟨-, rfl⟩ := romSet_next h
    rfl

/-- Settles O58: the engine's turn completes the command, and any other turn is one of the schedule's. -/
theorem busyStepsUseUpTheSchedule : Obligations.BusyStepsUseUpTheSchedule := by
  intro s t hbusy h
  by_cases hturn : s.nextTurn = .engine
  · rw [step_of_engine hturn hbusy] at h
    exact .inl (perform_completes h).1
  · have htail : t.schedule = s.schedule.tail := takeTurn_schedule hturn h
    have hne : s.schedule ≠ [] := fun hnil => hturn (by rw [State.nextTurn, hnil]; rfl)
    have hpos := List.length_pos_of_ne_nil hne
    right
    rw [htail, List.length_tail]
    omega

end Sys2Proof.Machine
end

section
/-! The invariant (R10 to R34, R86): the reset state meets it, and every turn of every agent keeps it. -/

namespace Sys2Proof.Machine

open Sys2Proof

/-- Settles O54: no command runs, nothing is reported, and the memories are empty. -/
theorem resetIsALegalState : Obligations.ResetIsALegalState where
  params_legal := config_params_legal
  rom_wf := Memory.wf_nil _
  pal_wf := Words.wf_nil _
  canvas_wf := Words.wf_nil _
  romLen_le := Nat.zero_le _
  palCnt_le := Nat.zero_le _
  latch_eq := fun h => absurd h Bool.false_ne_true
  busy_clear := fun h => absurd h Bool.false_ne_true
  err_iff := ⟨fun h => absurd h Bool.false_ne_true, fun h => absurd rfl h⟩
  err_done := fun h => absurd h Bool.false_ne_true
  errCode_produced := ⟨Nat.zero_le _, by decide⟩
  table_built := fun h => absurd h Bool.false_ne_true
  image_held := fun h => absurd h Bool.false_ne_true
  reset_idle := fun h => absurd h Bool.false_ne_true

/-! ### Completions -/

/-- The codes that are produced: all but PaletteIndexInvalid (R87, R91). -/
theorem number_produced {c : ErrCode} (h : c ≠ .paletteIndexInvalid) :
    c.number ≠ 0 ∧ c.number.toNat ≤ 8 ∧ c.number ≠ ErrCode.number .paletteIndexInvalid := by
  cases c with
  | paletteIndexInvalid => exact absurd rfl h
  | inputMissing | paletteTooSmall | outOfRange | tableNotBuilt | countZero | canvasOverflow | badCommand => decide

theorem commandCodes_ne_paletteIndexInvalid {i : Instr} {c : ErrCode} (h : c ∈ commandCodes i) :
    c ≠ .paletteIndexInvalid := by
  rintro rfl
  cases i <;> simp [commandCodes, gridCodes, singleUnitCodes] at h

theorem errorCompletion_inv {s : State} {e : CmdError} (h : s.Inv) (hcode : e.code ≠ .paletteIndexInvalid) :
    (errorCompletion e s).Inv :=
  have hnumber := number_produced hcode
  { h with
    latch_eq := fun hb => absurd hb Bool.false_ne_true
    busy_clear := fun hb => absurd hb Bool.false_ne_true
    err_iff := ⟨fun _ => hnumber.1, fun _ => rfl⟩
    err_done := fun _ => rfl
    errCode_produced := hnumber.2
    reset_idle := fun _ => rfl }

theorem tableDone_inv {s : State} (h : s.Inv) : (tableDone s).Inv :=
  { h with
    latch_eq := fun hb => absurd hb Bool.false_ne_true
    busy_clear := fun hb => absurd hb Bool.false_ne_true
    err_done := fun _ => rfl
    table_built := fun _ => rfl
    reset_idle := fun _ => rfl }

/-- The stored image is what OUTV promises: its size fits OUTW and OUTH, and every word of it holds a value (R31). -/
theorem imageDone_inv {s : State} {W H : Nat} {ws : List Word} (h : s.Inv) (hsize : imageSize W H)
    (hcap : W * H ≤ s.params.canvasCap) (hlen : ws.length = W * H) :
    (imageDone s W H (Words.storeRun ws s.canvas)).Inv := by
  obtain ⟨hW0, hH0, hW, hH⟩ := hsize
  have hpixels : (BitVec.ofNat 32 W).toNat * (BitVec.ofNat 32 H).toNat = W * H := by
    rw [BitVec.toNat_ofNat, BitVec.toNat_ofNat, Nat.mod_eq_of_lt (by omega), Nat.mod_eq_of_lt (by omega)]
  have himage : 0 < (BitVec.ofNat 32 W).toNat * (BitVec.ofNat 32 H).toNat ∧
      (BitVec.ofNat 32 W).toNat * (BitVec.ofNat 32 H).toNat ≤ s.params.canvasCap ∧
      ∀ a, a < (BitVec.ofNat 32 W).toNat * (BitVec.ofNat 32 H).toNat →
        (Words.read (Words.storeRun ws s.canvas) a).isSome = true := by
    rw [hpixels]
    refine ⟨Nat.mul_pos hW0 hH0, hcap, fun a ha => ?_⟩
    rw [Words.read_storeRun, dif_pos (by omega)]; rfl
  exact
    { h with
      canvas_wf := Words.wf_storeRun ws s.canvas h.canvas_wf (hlen.trans_le hcap)
      latch_eq := fun hb => absurd hb Bool.false_ne_true
      busy_clear := fun hb => absurd hb Bool.false_ne_true
      err_done := fun _ => rfl
      image_held := fun _ => himage
      reset_idle := fun _ => rfl }

theorem engineTurn_inv {s t : State} (h : s.Inv) (ht : engineTurn s = .next t) : t.Inv := by
  unfold engineTurn at ht
  split at ht
  · rcases perform_next ht with ⟨i, ht⟩ | rfl
    · rcases exec_next ht with ⟨e, he, rfl⟩ | ⟨-, rfl⟩ | ⟨-, W, H, ws, hsize, hcap, hlen, rfl⟩
      · exact errorCompletion_inv h (commandCodes_ne_paletteIndexInvalid he)
      · exact tableDone_inv h
      · exact imageDone_inv h hsize hcap hlen
    · exact errorCompletion_inv h (by simp [badCommandError])
  · cases ht
    exact h

/-! ### The host -/

theorem deliver_inv {s : State} (w : Option Word) (h : s.Inv) : (deliver w s).Inv := by
  cases w <;> exact { h with }

theorem acknowledge_inv {s : State} (v : Word) (h : s.Inv) : (acknowledge v s).Inv :=
  { h with
    busy_clear := fun hb => by
      obtain ⟨hdone, herr, haddr, hinfo⟩ := h.busy_clear hb
      exact ⟨by simp [hdone], by simp [herr], haddr, hinfo⟩
    err_iff := by
      simp only [acknowledge_status, Status_writeOneClear_err, Status_writeOneClear_errCode]
      cases v.getLsbD 1 with
      | false => simpa using h.err_iff
      | true => simp
    err_done := fun herr => by
      simp only [acknowledge_status, Status_writeOneClear_err, Status_writeOneClear_done, Bool.and_eq_true] at herr ⊢
      exact ⟨h.err_done herr.1, herr.2⟩
    errCode_produced := by
      simp only [acknowledge_status, Status_writeOneClear_errCode]
      split
      · exact ⟨Nat.zero_le _, by decide⟩
      · exact h.errCode_produced }

theorem lost_inv {s : State} (h : s.Inv) : ({ s with status := s.status.lost } : State).Inv := { h with }

/-- OUTV can only be cleared by acceptance (R56). -/
theorem Status_accept_outv_le {v : Word} {st : Status} (h : (st.accept v).outv = true) : st.outv = true := by
  rw [Status_accept_outv, Bool.and_eq_true] at h
  exact h.1

theorem acceptCommand_inv {s : State} (v : Word) (h : s.Inv) (hr : s.inReset = false) : (acceptCommand v s).Inv :=
  { h with
    latch_eq := fun _ => rfl
    busy_clear := fun _ => ⟨rfl, rfl, rfl, rfl⟩
    err_iff := ⟨fun herr => absurd herr Bool.false_ne_true, fun hcode => absurd rfl hcode⟩
    err_done := fun herr => absurd herr Bool.false_ne_true
    errCode_produced := ⟨Nat.zero_le _, by simp [ErrCode.number]⟩
    image_held := fun houtv => h.image_held (Status_accept_outv_le houtv)
    reset_idle := fun hreset => absurd (hr.symm.trans hreset) Bool.false_ne_true }

theorem romLenStored_le (s : State) (v : Word) : (romLenStored s v).toNat ≤ s.params.romCap := by
  have := v.isLt
  rw [romLenStored, BitVec.toNat_ofNat]
  omega

theorem palCntStored_le (v : Word) : (palCntStored v).toNat ≤ palCap := by
  rw [palCntStored, BitVec.toNat_ofNat]
  exact (Nat.mod_le _ _).trans (Nat.min_le_right _ _)

/-- A write to any word of REG keeps the state legal: what it stores is cut to the register's range, and while a command
runs it touches nothing the latch was filled from. -/
theorem writeSlot_inv {s : State} (v : Word) (k : Slot) (h : s.Inv) (hr : s.inReset = false)
    (hpal : ∀ n, k = .pal n → n < palCap) : (writeSlot v s k).Inv := by
  rcases writeSlot_cases v s k with hw | hw | ⟨-, hw⟩ | ⟨hidle, hw⟩
  · rw [hw]; exact h
  · rw [hw]; exact acknowledge_inv v h
  · rw [hw]; exact lost_inv h
  · have hlatch : ∀ {p : Prop}, s.status.busy = true → p := fun hb => absurd (hidle.symm.trans hb) Bool.false_ne_true
    rcases hw with hw | hw | hw | hw | hw | ⟨n, hn, hw⟩ <;> rw [hw]
    · exact acceptCommand_inv v h hr
    · exact { h with latch_eq := hlatch }
    · exact { h with latch_eq := hlatch }
    · exact { h with latch_eq := hlatch, romLen_le := romLenStored_le s v }
    · exact { h with latch_eq := hlatch, palCnt_le := palCntStored_le v }
    · exact { h with latch_eq := hlatch, pal_wf := Words.wf_write s.pal v h.pal_wf (hpal n hn) }

/-! ### The other agents, and the step -/

theorem applyReset_inv {s : State} (h : s.Inv) : (applyReset s).Inv :=
  { resetIsALegalState with
    params_legal := h.params_legal
    rom_wf := h.rom_wf
    canvas_wf := Words.wf_nil _
    romLen_le := Nat.zero_le _
    image_held := fun houtv => absurd houtv Bool.false_ne_true
    reset_idle := fun _ => rfl }

/-- Whoever takes its turn leaves a legal state. -/
theorem takeTurn_inv {turn : Turn} {s t : State} (h : s.Inv) (ht : takeTurn turn s = .next t) : t.Inv := by
  cases turn with
  | engine => exact engineTurn_inv h ht
  | hostRead a =>
    obtain ⟨-, w, rfl⟩ := hostRead_next ht
    exact deliver_inv w h
  | hostWrite a v =>
    obtain ⟨hr, ⟨off, rfl⟩ | rfl⟩ := hostWrite_next ht
    · exact writeSlot_inv v _ h hr fun n hn => slotAt_eq_pal hn
    · exact h
  | resetAssert => cases ht; exact applyReset_inv h
  | resetRelease => cases ht; exact { h with reset_idle := fun hr => absurd hr Bool.false_ne_true }
  | romSet a b =>
    obtain ⟨ha, rfl⟩ := romSet_next ht
    exact { h with rom_wf := Memory.wf_write s.rom b h.rom_wf ha }

/-- Settles O55: a step is a turn taken on the state that has lost it from its schedule, and each turn keeps the
invariant. -/
theorem stepKeepsTheStateLegal : Obligations.StepKeepsTheStateLegal :=
  fun s _ h hstep => takeTurn_inv (s := s.popTurn) { h with } hstep

end Sys2Proof.Machine
end

section
/-! BUILD's table (R60, R80), and the places of a placement and of a grid's cells (R71, R73). -/

namespace Sys2Proof.Machine

open Sys2Proof

/-- The entry at the destination of `(x, y)` is the source of `(x, y)` (R60). -/
theorem tableEntry_tableDest {x y : Nat} (hx : x < 32) (hy : y < 32) :
    tableEntry (BitVec.ofNat 10 (tableDest x y)) = BitVec.ofNat 10 (tableSource x y) := by
  rw [tableEntry, tableX_dest hx hy, tableY_dest hx hy]

/-- Settles O8: BUILD writes the built table, whose entry at each destination is the source. -/
theorem buildWritesTheDeinterleaveTable : Obligations.BuildWritesTheDeinterleaveTable := by
  refine fun s => ⟨builtTable, exec_build s, fun x y hx hy => ?_⟩
  exact (builtTable_getElem? (tableDest_lt hx hy)).trans (congrArg some (tableEntry_tableDest hx hy))

/-- A pixel placed at its own place, copied or blended (R71). -/
theorem place_pixel {mode : Mode} {W X Y w h x y : Nat} {img dst : Image} {c d : Word} (hx : x < w) (hy : y < h)
    (hW : X + x < W) (hc : img (y * w + x) = .ok c) (hd : dst ((Y + y) * W + (X + x)) = .ok d) :
    place mode W X Y img w h dst ((Y + y) * W + (X + x)) = .ok (placedOver (mode == .mask) d c) := by
  rw [place_at hx hy hW hc hd]
  cases mode <;> rfl

/-- A pixel that cannot be read ends the placement at its own place. -/
theorem place_pixel_error {mode : Mode} {W X Y w h x y : Nat} {img dst : Image} {e : Stop} (hx : x < w) (hy : y < h)
    (hW : X + x < W) (he : img (y * w + x) = .error e) :
    place mode W X Y img w h dst ((Y + y) * W + (X + x)) = .error e := by
  have hcol : ((Y + y) * W + (X + x)) % W = X + x := pixel_mod hW
  have hrow : ((Y + y) * W + (X + x)) / W = Y + y := pixel_div hW
  apply place_src_error
  · rw [hcol, hrow]; omega
  · rw [hcol, hrow, Nat.add_sub_cancel_left, Nat.add_sub_cancel_left]; exact he

/-- Settles O13: each address of the rectangle is a pixel's own place, and an address that is no pixel's place lies
outside the rectangle. -/
theorem placementWritesExactlyItsRectangle : Obligations.PlacementWritesExactlyItsRectangle := by
  intro mode W X Y img w h dst hfit
  refine ⟨fun tx ty c d htx hty hc hd => place_pixel htx hty (by omega) hc hd, fun a ha => place_outside ?_⟩
  rintro ⟨hx0, hx1, hy0, hy1⟩
  refine ha (a % W - X) (a / W - Y) (by omega) (by omega) ?_
  rw [Nat.add_sub_cancel' hy0, Nat.add_sub_cancel' hx0, Nat.mul_comm]
  exact (Nat.div_add_mod a W).symm

/-- The row before the last is full: all rows but one hold fewer cells than the grid (R73). -/
theorem full_rows_lt {cnt : Nat} (h : cnt ≠ 0) : gridCols cnt * (gridRows cnt - 1) < cnt := by
  have hcols := gridCols_pos h
  have hdiv := Nat.div_mul_le_self (cnt + gridCols cnt - 1) (gridCols cnt)
  rw [Nat.mul_comm] at hdiv
  unfold gridRows ceilDiv
  rw [Nat.mul_sub, Nat.mul_one]
  omega

/-- A cell lies inside the grid, whatever its size is (R73). -/
theorem cell_inside {cw ch cnt k : Nat} (hk : k < cnt) :
    cellX cw cnt k + cw ≤ gridW cw cnt ∧ cellY ch cnt k + ch ≤ gridH ch cnt :=
  ⟨Nat.mul_le_mul_left cw (Nat.mod_lt k (gridCols_pos (by omega))), Nat.mul_le_mul_left ch (lt_gridRows hk)⟩

/-- Settles O14: the columns and rows are R73's by definition, and the cells' places follow from them. -/
theorem gridCellsAreDisjointAndInside : Obligations.GridCellsAreDisjointAndInside := by
  intro cw ch cnt hcnt
  have hne : cnt ≠ 0 := by omega
  refine ⟨rfl, rfl, gridCols_pos hne, le_cells hne, full_rows_lt hne, rfl, rfl,
    fun k hk => ⟨rfl, rfl, cell_inside hk⟩, ?_⟩
  intro j k x y _ _ hxj hxj' hxk hxk' hyj hyj' hyk hyk'
  exact cells_disjoint ⟨hxj, hxj'⟩ ⟨hxk, hxk'⟩ ⟨hyj, hyj'⟩ ⟨hyk, hyk'⟩

end Sys2Proof.Machine
end

section
/-! The checks of the commands as one condition (R96), and what a command does once they have passed. -/

namespace Sys2Proof.Machine

open Sys2Proof

/-! ### When the checks pass -/

/-- Every check of a command passes (R80 to R85, R96). -/
def checksPass : Instr → State → Prop
  | .build, _ => True
  | .render, s => decodeReady s ∧ offOf s + 512 ≤ lenOf s
  | .compose, s => decodeReady s ∧ cntOf s ≠ 0 ∧
      32 * colsOf (cntOf s) * (32 * rowsOf (cntOf s)) ≤ s.params.canvasCap ∧
      ∀ k, k < cntOf s → offOf s + 512 * k + 512 ≤ lenOf s
  | .metaTile _, s => decodeReady s ∧ ∀ k, k < 8 → subInRange s (offOf s) k
  | .metaGrid _ _, s => decodeReady s ∧ cntOf s ≠ 0 ∧
      128 * colsOf (cntOf s) * (64 * rowsOf (cntOf s)) ≤ s.params.canvasCap ∧
      ∀ m k, m < cntOf s → k < 8 → subInRange s (offOf s + 16 * m) k

/-- What a command does once its checks have passed: it reads its colours and writes (R78). -/
def commandStore : Instr → State → Perf State
  | .build, s => buildWrites s
  | .render, s => storeImage 32 32 (decodeTile s (offOf s)) s
  | .compose, s => palColour s 0 >>= fun bg =>
      storeImage (32 * colsOf (cntOf s)) (32 * rowsOf (cntOf s)) (composeImage s bg) s
  | .metaTile msub, s => palColour s 0 >>= fun bg => storeImage 128 64 (metaImage s bg (offOf s) msub) s
  | .metaGrid msub mgrid, s => palColour s 0 >>= fun bg =>
      storeImage (128 * colsOf (cntOf s)) (64 * rowsOf (cntOf s)) (metaGridImage s bg msub mgrid) s

/-- The checks of a command, and then the rest of it. -/
theorem commandWrites_of_checksPass {i : Instr} {s : State} (hlen : lenLegal s) (h : checksPass i s) :
    commandWrites i s = commandStore i s := by
  cases i with
  | build => rfl
  | render =>
    obtain ⟨hready, hrange⟩ := h
    have hpre := checkPreconditions_of_decodeReady hready
    have hr : checkRange s s.argOff tileBytes (tileInfo 0 0) = .ok () := checkRange_ok.mpr hrange
    have hn : checkNibbles s s.argOff (tileInfo 0 0) = .ok () :=
      checkNibbles_of_tile hready.2.1 (hrange.trans hlen)
    simp only [commandWrites, renderWrites, hpre, hr, hn, perf_ok_bind]
    rfl
  | compose =>
    obtain ⟨hready, hcnt, hcap, hrange⟩ := h
    have hpre := checkPreconditions_of_decodeReady hready
    have hg : checkGrid s tileSide tileSide = .ok () := checkGrid_ok.mpr ⟨hcnt, hcap⟩
    have hr : (List.range s.argCnt).forM (fun k => checkRange s (tileOff s.argOff k) tileBytes (tileInfo k 0)) =
        .ok () := forM_ok.mpr fun k hk => checkRange_ok.mpr (hrange k (List.mem_range.mp hk))
    have hn : (List.range s.argCnt).forM (fun k => checkNibbles s (tileOff s.argOff k) (tileInfo k 0)) = .ok () :=
      forM_ok.mpr fun k hk => checkNibbles_of_tile hready.2.1 ((hrange k (List.mem_range.mp hk)).trans hlen)
    simp only [commandWrites, composeWrites, hpre, hg, hr, hn, perf_ok_bind]
    rfl
  | metaTile msub =>
    obtain ⟨hready, hrange⟩ := h
    have hpre := checkPreconditions_of_decodeReady hready
    have hr : checkMeta s 0 s.argOff = .ok () := (checkMeta_ok hlen).mpr hrange
    have hn : checkMetaNibbles s 0 s.argOff = .ok () := checkMetaNibbles_of_ranges hready.2.1 hlen hrange
    simp only [commandWrites, metaTileWrites, hpre, hr, hn, perf_ok_bind]
    rfl
  | metaGrid msub mgrid =>
    obtain ⟨hready, hcnt, hcap, hrange⟩ := h
    have hpre := checkPreconditions_of_decodeReady hready
    have hg : checkGrid s metaW metaH = .ok () := checkGrid_ok.mpr ⟨hcnt, hcap⟩
    have hr : (List.range s.argCnt).forM (fun m => checkMeta s m (descOff s.argOff m)) = .ok () :=
      forM_ok.mpr fun m hm => (checkMeta_ok hlen).mpr fun k => hrange m k (List.mem_range.mp hm)
    have hn : (List.range s.argCnt).forM (fun m => checkMetaNibbles s m (descOff s.argOff m)) = .ok () :=
      forM_ok.mpr fun m hm =>
        checkMetaNibbles_of_ranges hready.2.1 hlen fun k => hrange m k (List.mem_range.mp hm)
    simp only [commandWrites, metaGridWrites, hpre, hg, hr, hn, perf_ok_bind]
    rfl

/-! ### A fault comes only after the checks -/

/-- What comes first and ends in no fault has passed when the whole ends in one. -/
theorem perf_bind_fault {α β : Type} {x : Perf α} {k : α → Perf β} {f : Fault} (hx : x ≠ .error (.fault f))
    (h : (x >>= k) = .error (.fault f)) : ∃ a, x = .ok a ∧ k a = .error (.fault f) :=
  (perf_bind_error.mp h).resolve_left hx

theorem checkPreconditions_ne_fault (s : State) (f : Fault) : checkPreconditions s ≠ .error (.fault f) := by
  rw [Ne, checkPreconditions_error]
  simp

theorem checkGrid_ne_fault (s : State) (cw ch : Nat) (f : Fault) : checkGrid s cw ch ≠ .error (.fault f) := by
  rw [Ne, checkGrid_error]
  simp

theorem checkRange_ne_fault (s : State) (a n : Nat) (info : Word) (f : Fault) :
    checkRange s a n info ≠ .error (.fault f) := by
  rw [Ne, checkRange_error]
  simp

/-- A loop of checks that end in no fault ends in none. -/
theorem forM_range_ne_fault {n : Nat} {check : Nat → Perf Unit} {f : Fault}
    (h : ∀ k, check k ≠ .error (.fault f)) : (List.range n).forM check ≠ .error (.fault f) := by
  rw [Ne, forM_range_error]
  exact fun ⟨k, _, _, hk⟩ => h k hk

/-- A descriptor field is read only when it lies below ROMLEN (R84). -/
theorem checkMeta_ne_fault {s : State} (hlen : lenLegal s) (m d : Nat) (f : Fault) :
    checkMeta s m d ≠ .error (.fault f) := by
  refine forM_range_ne_fault fun k h => ?_
  obtain ⟨⟨⟩, hfield, h⟩ := perf_bind_fault (checkRange_ne_fault _ _ _ _ _) h
  have hfield' : d + 2 * k + 2 ≤ lenOf s := checkRange_ok.mp hfield
  have hcap : lenOf s ≤ s.params.romCap := hlen
  rw [subOff_of_lt (by omega), perf_ok_bind] at h
  exact checkRange_ne_fault _ _ _ _ _ h

/-- A command that ends in a fault has passed its checks (R57, R78; log 6). -/
theorem checksPass_of_fault {i : Instr} {s : State} {f : Fault} (hlen : lenLegal s)
    (h : commandWrites i s = .error (.fault f)) : checksPass i s := by
  cases i with
  | build => exact trivial
  | render =>
    obtain ⟨⟨⟩, hpre, h⟩ := perf_bind_fault (checkPreconditions_ne_fault _ _) h
    obtain ⟨⟨⟩, hr, h⟩ := perf_bind_fault (checkRange_ne_fault _ _ _ _ _) h
    exact ⟨checkPreconditions_ok.mp hpre, checkRange_ok.mp hr⟩
  | compose =>
    obtain ⟨⟨⟩, hpre, h⟩ := perf_bind_fault (checkPreconditions_ne_fault _ _) h
    obtain ⟨⟨⟩, hg, h⟩ := perf_bind_fault (checkGrid_ne_fault _ _ _ _) h
    obtain ⟨⟨⟩, hr, h⟩ := perf_bind_fault (forM_range_ne_fault fun k => checkRange_ne_fault _ _ _ _ _) h
    obtain ⟨hcnt, hcap⟩ := checkGrid_ok.mp hg
    exact ⟨checkPreconditions_ok.mp hpre, hcnt, hcap,
      fun k hk => checkRange_ok.mp (forM_ok.mp hr k (List.mem_range.mpr hk))⟩
  | metaTile msub =>
    obtain ⟨⟨⟩, hpre, h⟩ := perf_bind_fault (checkPreconditions_ne_fault _ _) h
    obtain ⟨⟨⟩, hr, h⟩ := perf_bind_fault (checkMeta_ne_fault hlen _ _ _) h
    exact ⟨checkPreconditions_ok.mp hpre, (checkMeta_ok hlen).mp hr⟩
  | metaGrid msub mgrid =>
    obtain ⟨⟨⟩, hpre, h⟩ := perf_bind_fault (checkPreconditions_ne_fault _ _) h
    obtain ⟨⟨⟩, hg, h⟩ := perf_bind_fault (checkGrid_ne_fault _ _ _ _) h
    obtain ⟨⟨⟩, hr, h⟩ := perf_bind_fault (forM_range_ne_fault fun m => checkMeta_ne_fault hlen _ _ _) h
    obtain ⟨hcnt, hcap⟩ := checkGrid_ok.mp hg
    exact ⟨checkPreconditions_ok.mp hpre, hcnt, hcap,
      fun m k hm => (checkMeta_ok hlen).mp (forM_ok.mp hr m (List.mem_range.mpr hm)) k⟩

theorem exec_of_commandStore {i : Instr} {s : State} (hlen : lenLegal s) (h : checksPass i s) :
    exec i s = completeCommand s (commandStore i s) := by
  rw [exec_eq_completeCommand, commandWrites_of_checksPass hlen h]

end Sys2Proof.Machine
end

section
/-! The images of the commands (R66, R71 to R77): which word each address shows, and in what a colour that cannot be read
ends. -/

namespace Sys2Proof.Machine

open Sys2Proof

/-! ### Grids -/

/-- The image of a grid of cells over a backdrop (R72, R73). -/
def gridImage (mode : Mode) (cw ch cnt : Nat) (img : Nat → Image) (bg : Word) : Image :=
  placeAll cnt (fun k => place mode (gridW cw cnt) (cellX cw cnt k) (cellY ch cnt k) (img k) cw ch) (filled bg)

theorem composeImage_eq_gridImage (s : State) (bg : Word) :
    composeImage s bg = gridImage .mask 32 32 (cntOf s) (fun k => decodeTile s (offOf s + 512 * k)) bg := rfl

theorem metaGridImage_eq_gridImage (s : State) (bg : Word) (msub mgrid : Bool) :
    metaGridImage s bg msub mgrid =
      gridImage (Mode.ofFlag mgrid) 128 64 (cntOf s) (fun m => metaImage s bg (offOf s + 16 * m) msub) bg := rfl

section Grid

variable {mode : Mode} {cw ch cnt : Nat} {img : Nat → Image} {bg : Word}

/-- A pixel of cell `k` stands at its place in the grid. -/
theorem gridImage_pixel {k x y : Nat} {c : Word} (hk : k < cnt) (hx : x < cw) (hy : y < ch)
    (hc : img k (y * cw + x) = .ok c) :
    gridImage mode cw ch cnt img bg ((cellY ch cnt k + y) * gridW cw cnt + (cellX cw cnt k + x)) =
      .ok (placedOver (mode == .mask) bg c) :=
  (placeAll_cell hk hx hy).trans (place_pixel hx hy (cell_of_pixel hx hy hk).1 hc rfl)

/-- A pixel of cell `k` that cannot be read ends the image at its place. -/
theorem gridImage_pixel_error {k x y : Nat} {e : Stop} (hk : k < cnt) (hx : x < cw) (hy : y < ch)
    (he : img k (y * cw + x) = .error e) :
    gridImage mode cw ch cnt img bg ((cellY ch cnt k + y) * gridW cw cnt + (cellX cw cnt k + x)) = .error e :=
  (placeAll_cell hk hx hy).trans (place_pixel_error hx hy (cell_of_pixel hx hy hk).1 he)

/-- Right of the last cell the grid shows the backdrop. -/
theorem gridImage_beyond {x y : Nat} (hx : x < gridW cw cnt) (hcell : cnt ≤ y / ch * gridCols cnt + x / cw) :
    gridImage mode cw ch cnt img bg (y * gridW cw cnt + x) = .ok bg :=
  placeAll_beyond hx hcell

/-- A grid whose cells can all be read can be read. -/
theorem gridImage_readable (hcw : 0 < cw) (hch : 0 < ch)
    (himg : ∀ k x y, k < cnt → x < cw → y < ch → ∃ c, img k (y * cw + x) = .ok c) :
    ∀ a, a < gridW cw cnt * gridH ch cnt → ∃ c, gridImage mode cw ch cnt img bg a = .ok c := by
  intro a ha
  rcases grid_cover hcw hch ha with ⟨k, x, y, hk, hx, hy, rfl⟩ | ⟨x, y, hx, -, hcell, rfl⟩
  · obtain ⟨c, hc⟩ := himg k x y hk hx hy
    exact ⟨_, gridImage_pixel hk hx hy hc⟩
  · exact ⟨_, gridImage_beyond hx hcell⟩

/-- A grid ends only as its cells can end. -/
theorem gridImage_error {P : Stop → Prop}
    (himg : ∀ k x y e, k < cnt → x < cw → y < ch → img k (y * cw + x) = .error e → P e) :
    ∀ a e, gridImage mode cw ch cnt img bg a = .error e → P e :=
  placeAll_error (fun k _ hk => place_error fun tx ty e htx hty => himg k tx ty e hk htx hty)
    fun _ _ h => absurd h filled_ne_error

end Grid

/-! ### Meta-tiles -/

section MetaTile

variable {s : State} {bg : Word} {d k x y : Nat} {msub : Bool}

/-- What a meta-tile image shows inside sub-tile `k`: what the placement of that sub-tile alone shows (R76). -/
theorem metaImage_subTile (hk : k < 8) (hx : x < 32) (hy : y < 32) :
    metaImage s bg d msub ((32 * (k % 2) + y) * 128 + (32 * (k / 2) + x)) =
      place (Mode.ofFlag msub) 128 (32 * (k / 2)) (32 * (k % 2)) (subTile s d k) 32 32 (filled bg)
        ((32 * (k % 2) + y) * 128 + (32 * (k / 2) + x)) := by
  have hW : 32 * (k / 2) + x < 128 := by omega
  have hX : subX k = 32 * (k / 2) := Nat.mul_comm _ _
  have hY : subY k = 32 * (k % 2) := Nat.mul_comm _ _
  unfold metaImage
  rw [placeAll_once (k := k) (show k < metaSubs from hk)]
  · rw [hX, hY]; rfl
  · refine fun j _ hjk dst => place_outside ?_
    rw [show metaW = 128 from rfl, pixel_mod hW, pixel_div hW]
    intro hin
    have hj := (in_subTile_iff j _ _).mp hin
    omega
  · exact fun _ _ => place_congr

theorem metaImage_pixel_error {e : Stop} (hk : k < 8) (hx : x < 32) (hy : y < 32)
    (he : subTile s d k (y * 32 + x) = .error e) :
    metaImage s bg d msub ((32 * (k % 2) + y) * 128 + (32 * (k / 2) + x)) = .error e :=
  (metaImage_subTile hk hx hy).trans (place_pixel_error hx hy (by omega) he)

/-- A meta-tile whose sub-tiles can all be read can be read. -/
theorem metaImage_readable (hsub : ∀ k x y, k < 8 → x < 32 → y < 32 → ∃ c, subTile s d k (y * 32 + x) = .ok c) :
    ∀ a, a < 128 * 64 → ∃ c, metaImage s bg d msub a = .ok c := by
  intro a ha
  obtain ⟨k, x, y, hk, hx, hy, rfl⟩ := metaImage_cover ha
  obtain ⟨c, hc⟩ := hsub k x y hk hx hy
  exact ⟨_, metaImage_pixel hk hx hy hc⟩

/-- A meta-tile ends only as its sub-tiles can end. -/
theorem metaImage_error_of {P : Stop → Prop}
    (hsub : ∀ k x y e, k < 8 → x < 32 → y < 32 → subTile s d k (y * 32 + x) = .error e → P e) :
    ∀ a e, metaImage s bg d msub a = .error e → P e :=
  placeAll_error (fun k _ hk => place_error fun tx ty e htx hty => hsub k tx ty e hk htx hty)
    fun _ _ h => absurd h filled_ne_error

/-- A sub-tile in range is the tile its field names (R74, R75). -/
theorem subTile_of_inRange (hlen : lenLegal s) (h : subInRange s d k) :
    subTile s d k = decodeTile s (wallTile s d k) ∧ wallTile s d k + 512 ≤ s.params.romCap := by
  obtain ⟨hfield, htile⟩ := h
  have hcap : lenOf s ≤ s.params.romCap := hlen
  refine ⟨funext fun i => ?_, htile.trans hlen⟩
  simp only [subTile]
  rw [subOff_of_lt (by omega)]
  rfl

end MetaTile

/-! ### Colours never written -/

/-- The end of a command that reads a palette entry never written, and some entry a nibble can reach holds no value
(R26, R115). -/
def unwrittenColour (s : State) (e : Stop) : Prop := e = .fault .paletteEntryUnwritten ∧ ¬ s.palReady

theorem palColour_unwritten {s : State} {n : Nat} {e : Stop} (hn : n < 16) (h : palColour s n = .error e) :
    unwrittenColour s e := by
  obtain ⟨hnone, he⟩ := palColour_error.mp h
  exact ⟨he, fun hready => by simpa [hnone] using hready n hn⟩

theorem palColour_of_unwritten {s : State} {n : Nat} (h : Words.read s.pal n = none) :
    palColour s n = .error (.fault .paletteEntryUnwritten) :=
  palColour_error.mpr ⟨h, rfl⟩

/-- A tile inside the ROM space ends only so. -/
theorem decodeTile_unwritten {s : State} {off i : Nat} {e : Stop} (hcap : off + 512 ≤ s.params.romCap)
    (h : decodeTile s off i = .error e) : unwrittenColour s e := by
  rw [decodeTile_eq_palColour hcap] at h
  exact palColour_unwritten (pixelNibble s off i).isLt h

theorem metaImage_unwritten {s : State} {bg : Word} {d : Nat} {msub : Bool} (hlen : lenLegal s)
    (hrange : ∀ k, k < 8 → subInRange s d k) :
    ∀ a e, metaImage s bg d msub a = .error e → unwrittenColour s e := by
  refine metaImage_error_of fun k x y e hk _ _ h => ?_
  obtain ⟨htile, hcap⟩ := subTile_of_inRange hlen (hrange k hk)
  rw [htile] at h
  exact decodeTile_unwritten hcap h

theorem composeImage_unwritten {s : State} {bg : Word} (hlen : lenLegal s)
    (hrange : ∀ k, k < cntOf s → offOf s + 512 * k + 512 ≤ lenOf s) :
    ∀ a e, composeImage s bg a = .error e → unwrittenColour s e := by
  rw [composeImage_eq_gridImage]
  exact gridImage_error fun k _ _ _ hk _ _ h => decodeTile_unwritten ((hrange k hk).trans hlen) h

theorem metaGridImage_unwritten {s : State} {bg : Word} {msub mgrid : Bool} (hlen : lenLegal s)
    (hrange : ∀ m k, m < cntOf s → k < 8 → subInRange s (offOf s + 16 * m) k) :
    ∀ a e, metaGridImage s bg msub mgrid a = .error e → unwrittenColour s e := by
  rw [metaGridImage_eq_gridImage]
  exact gridImage_error fun m _ _ _ hm _ _ h => metaImage_unwritten hlen (fun k => hrange m k hm) _ _ h

/-! ### Storing an image -/

/-- An image that fits the canvas ends only as its colours can end. -/
theorem storeImage_error_of_fits {P : Stop → Prop} {W H : Nat} {img : Image} {s : State} {e : Stop}
    (hcap : W * H ≤ s.params.canvasCap) (himg : ∀ a e, img a = .error e → P e)
    (h : storeImage W H img s = .error e) : P e := by
  rcases perf_bind_error.mp h with h | ⟨ws, -, h⟩
  · obtain ⟨a, -, ha⟩ := mapM_range_error h
    exact himg a e ha
  · rw [if_pos hcap] at h
    cases h

/-- A colour never written ends the storing of an image all of whose other ends are the same. -/
theorem storeImage_unwritten {W H a : Nat} {img : Image} {s : State} (ha : a < W * H)
    (himg : img a = .error (.fault .paletteEntryUnwritten))
    (honly : ∀ a e, img a = .error e → unwrittenColour s e) :
    storeImage W H img s = .error (.fault .paletteEntryUnwritten) :=
  storeImage_of_error ha himg fun b e _ hb => (honly b e hb).1

/-- The canvas `c` shows the `W` by `H` image over what the canvas `m` held (R31). -/
structure Shows (W H : Nat) (img : Image) (m c : Words) : Prop where
  inside : ∀ {a w}, a < W * H → img a = .ok w → Words.read c a = some w
  outside : ∀ {a}, W * H ≤ a → Words.read c a = Words.read m a

/-- The colour an image shows at an address, where it can be read. -/
def shownAt (img : Image) (a : Nat) : Word :=
  match img a with
  | .ok w => w
  | .error _ => 0

/-- A command whose writes are the storing of an image that fits and can be read completes with that image. -/
theorem exec_of_image {i : Instr} {s : State} {W H : Nat} {img : Image}
    (hexec : exec i s = completeCommand s (storeImage W H img s)) (hcap : W * H ≤ s.params.canvasCap)
    (himg : ∀ a, a < W * H → ∃ w, img a = .ok w) :
    ∃ c, exec i s = .next (imageDone s W H c) ∧ Shows W H img s.canvas c := by
  have hshown : ∀ {a w}, img a = .ok w → shownAt img a = w := fun h => by rw [shownAt, h]
  have hstore := storeImage_of_colours (img := img) (shownAt img) hcap fun a ha => by
    obtain ⟨w, hw⟩ := himg a ha
    rw [hw, hshown hw]
  refine ⟨_, by rw [hexec, hstore]; rfl, fun ha hw => ?_, fun ha => ?_⟩ <;> rw [read_storeRun_map]
  · rw [if_pos ha, hshown hw]
  · rw [if_neg (Nat.not_lt.mpr ha)]

end Sys2Proof.Machine
end

section
/-! What the image commands show when they succeed (R66, R81 to R85). -/

namespace Sys2Proof.Machine

open Sys2Proof

/-! ### Pixels whose colours have been written -/

/-- A pixel of a tile whose colours have been written (R66). -/
theorem decodeTile_held {s : State} {pal : BitVec 4 → Word} {off i : Nat} (hcap : off + 512 ≤ s.params.romCap)
    (hheld : coloursHeld s pal off) (hi : i < 1024) : decodeTile s off i = .ok (pal (pixelNibble s off i)) := by
  rw [decodeTile_eq_palColour hcap]
  exact palColour_of_read (hheld i hi)

/-- A pixel of a sub-tile in range whose colours have been written (R75). -/
theorem subTile_held {s : State} {pal : BitVec 4 → Word} {d k i : Nat} (hlen : lenLegal s) (hrange : subInRange s d k)
    (hheld : coloursHeld s pal (wallTile s d k)) (hi : i < 1024) :
    subTile s d k i = .ok (pal (pixelNibble s (wallTile s d k) i)) := by
  obtain ⟨htile, hcap⟩ := subTile_of_inRange hlen hrange
  rw [htile]
  exact decodeTile_held hcap hheld hi

/-- A raster index of a tile. -/
theorem tile_index_lt {x y : Nat} (hx : x < 32) (hy : y < 32) : y * 32 + x < 1024 := by omega

/-- The backdrop over which a composite command places its tiles is PAL[0] (R72). -/
theorem backdrop_bind {s : State} {bg : Word} (hbg : Words.read s.pal 0 = some bg) (f : Word → Perf State) :
    (palColour s 0 >>= f) = f bg := by
  rw [palColour_of_read hbg, perf_ok_bind]

/-! ### RENDER and COMPOSE -/

/-- Settles O16: the stored image is the tile, each of whose pixels can be read. -/
theorem renderWritesTheDecodedTile : Obligations.RenderWritesTheDecodedTile := by
  intro s pal hready hlen hcap hrange hheld
  have hpixel : ∀ i, i < 1024 → decodeTile s (offOf s) i = .ok (pal (pixelNibble s (offOf s) i)) :=
    fun i hi => decodeTile_held (hrange.trans hlen) hheld hi
  obtain ⟨c, hexec, hshow⟩ := exec_of_image (i := .render) (exec_of_commandStore hlen ⟨hready, hrange⟩) hcap
    fun a ha => ⟨_, hpixel a ha⟩
  exact ⟨c, hexec, fun i hi => hshow.inside hi (hpixel i hi), fun a ha => hshow.outside ha⟩

/-- Settles O17: the stored image is the grid of tiles, placed masked over the backdrop. -/
theorem composePlacesEveryTileMasked : Obligations.ComposePlacesEveryTileMasked := by
  intro s pal bg hready hlen hcnt hcap hrange hbg hheld
  have hpixel : ∀ k i, k < cntOf s → i < 1024 → decodeTile s (offOf s + 512 * k) i =
      .ok (pal (pixelNibble s (offOf s + 512 * k) i)) :=
    fun k i hk hi => decodeTile_held ((hrange k hk).trans hlen) (hheld k hk) hi
  have hpass : checksPass .compose s := ⟨hready, hcnt, hcap, hrange⟩
  obtain ⟨c, hexec, hshow⟩ := exec_of_image
    ((exec_of_commandStore hlen hpass).trans (congrArg (completeCommand s) (backdrop_bind hbg _))) hcap
    (gridImage_readable (by decide) (by decide)
      fun k x y hk hx hy => ⟨_, hpixel k _ hk (tile_index_lt hx hy)⟩)
  refine ⟨c, hexec, fun k x y hk hx hy => ?tile, fun x y hx hy hcell => ?backdrop, fun a ha => hshow.outside ha⟩
  case tile =>
    obtain ⟨hcol, hrow⟩ := cell_of_pixel (cnt := cntOf s) hx hy hk
    exact hshow.inside (pixel_lt hcol hrow) (gridImage_pixel hk hx hy (hpixel k _ hk (tile_index_lt hx hy)))
  case backdrop => exact hshow.inside (pixel_lt hx hy) (gridImage_beyond hx hcell)

/-! ### META and METAGRID -/

theorem placedOver_ofFlag (flag : Bool) (bg c : Word) :
    placedOver (Mode.ofFlag flag == .mask) bg c = placedOver flag bg c := by
  cases flag <;> rfl

/-- Settles O18: the stored image is the meta-tile, whose every word belongs to a pixel of one sub-tile. -/
theorem metaAssemblesEightSubTiles : Obligations.MetaAssemblesEightSubTiles := by
  intro s pal bg msub hready hlen hcap hrange hbg hheld
  have hpixel : ∀ k x y, k < 8 → x < 32 → y < 32 → subTile s (offOf s) k (y * 32 + x) =
      .ok (pal (pixelNibble s (wallTile s (offOf s) k) (y * 32 + x))) :=
    fun k x y hk hx hy => subTile_held hlen (hrange k hk) (hheld k hk) (tile_index_lt hx hy)
  have hpass : checksPass (.metaTile msub) s := ⟨hready, hrange⟩
  obtain ⟨c, hexec, hshow⟩ := exec_of_image
    ((exec_of_commandStore hlen hpass).trans (congrArg (completeCommand s) (backdrop_bind hbg _))) hcap
    (metaImage_readable fun k x y hk hx hy => ⟨_, hpixel k x y hk hx hy⟩)
  refine ⟨c, hexec, fun k x y hk hx hy => hshow.inside (pixel_lt (by omega) (by omega)) ?_,
    fun a ha => hshow.outside ha⟩
  exact metaImage_pixel hk hx hy (hpixel k x y hk hx hy)

/-- Settles O19: the stored image is the grid of meta-tiles; a pixel of a sub-tile is placed into its meta-tile by MSUB
and, with the meta-tile, into the grid by MGRID. -/
theorem metaGridPlacesEveryMetaTile : Obligations.MetaGridPlacesEveryMetaTile := by
  intro s pal bg msub mgrid hready hlen hcnt hcap hrange hbg hheld
  have hpixel : ∀ m k x y, m < cntOf s → k < 8 → x < 32 → y < 32 → subTile s (offOf s + 16 * m) k (y * 32 + x) =
      .ok (pal (pixelNibble s (wallTile s (offOf s + 16 * m) k) (y * 32 + x))) :=
    fun m k x y hm hk hx hy => subTile_held hlen (hrange m k hm hk) (hheld m k hm hk) (tile_index_lt hx hy)
  have hcell : ∀ m, m < cntOf s → ∀ a, a < 128 * 64 → ∃ c, metaImage s bg (offOf s + 16 * m) msub a = .ok c :=
    fun m hm => metaImage_readable fun k x y hk hx hy => ⟨_, hpixel m k x y hm hk hx hy⟩
  have hpass : checksPass (.metaGrid msub mgrid) s := ⟨hready, hcnt, hcap, hrange⟩
  obtain ⟨c, hexec, hshow⟩ := exec_of_image
    ((exec_of_commandStore hlen hpass).trans (congrArg (completeCommand s) (backdrop_bind hbg _))) hcap
    (gridImage_readable (by decide) (by decide) fun m x y hm hx hy => hcell m hm _ (pixel_lt hx hy))
  refine ⟨c, hexec, fun m k x y hm hk hx hy => ?subTile, fun x y hx hy hbeyond => ?backdrop,
    fun a ha => hshow.outside ha⟩
  case subTile =>
    have hu : 32 * (k / 2) + x < 128 := by omega
    have hv : 32 * (k % 2) + y < 64 := by omega
    obtain ⟨hcol, hrow⟩ := cell_of_pixel (cnt := cntOf s) hu hv hm
    rw [Nat.add_assoc (64 * _), Nat.add_assoc (128 * _), ← placedOver_ofFlag mgrid]
    exact hshow.inside (pixel_lt hcol hrow)
      (gridImage_pixel hm hu hv (metaImage_pixel hk hx hy (hpixel m k x y hm hk hx hy)))
  case backdrop => exact hshow.inside (pixel_lt hx hy) (gridImage_beyond hx hbeyond)

/-! ### One cell -/

/-- Settles O23: COMPOSE's only tile stands at the origin, so its word `i` is the blend of RENDER's word `i`; the words
beyond the image are in both what they were. -/
theorem composeOfOneIsRenderBlended : Obligations.ComposeOfOneIsRenderBlended := by
  intro s pal bg hready hlen hcap hcnt hrange hbg hheld
  obtain ⟨c, hrender, hc, hc'⟩ := renderWritesTheDecodedTile s pal hready hlen hcap hrange hheld
  have hcompose := composePlacesEveryTileMasked s pal bg hready hlen
  rw [hcnt] at hcompose
  obtain ⟨d, hcompose, htile, -, hd'⟩ := hcompose (by decide) hcap (fun k hk => by omega) hbg
    (fun k hk => by obtain rfl := Nat.lt_one_iff.mp hk; exact hheld)
  have hd : ∀ i, i < 1024 → Words.read d i = some (blend bg (pal (pixelNibble s (offOf s) i))) := by
    intro i hi
    have h := htile 0 (i % 32) (i / 32) (by decide) (by omega) (by omega)
    have hindex : i / 32 * 32 + i % 32 = i := by omega
    have haddr : (32 * (0 / colsOf 1) + i / 32) * (32 * colsOf 1) + (32 * (0 % colsOf 1) + i % 32) = i := by
      rw [show colsOf 1 = 1 from rfl]; omega
    rwa [haddr, hindex] at h
  have hsame : (∀ a, sameWord d c a) ↔
      ∀ i, i < 1024 → blend bg (pal (pixelNibble s (offOf s) i)) = pal (pixelNibble s (offOf s) i) := by
    refine ⟨fun h i hi => ?_, fun h a => ?_⟩
    · have hword : Words.read d i = Words.read c i := h i
      rw [hd i hi, hc i hi] at hword
      exact Option.some.inj hword
    · by_cases ha : a < 1024
      · rw [sameWord, hd a ha, hc a ha, h a ha]
      · exact (hd' a (Nat.not_lt.mp ha)).trans (hc' a (Nat.not_lt.mp ha)).symm
  exact ⟨c, d, hrender, hcompose, fun i hi => ⟨_, hc i hi, hd i hi⟩, hsame,
    fun hopaque => hsame.mpr fun i hi => blend_alpha_max bg (hopaque i hi)⟩

/-- A copied cell that fills its grid is its image. -/
theorem gridImage_copy_one {cw ch a : Nat} {img : Nat → Image} {bg : Word} (ha : a < cw * ch) :
    gridImage .copy cw ch 1 img bg a = img 0 a := by
  obtain ⟨hx, hy, haddr⟩ := coords_of_lt ha
  have hW : gridW cw 1 = cw := Nat.mul_one cw
  have hX : cellX cw 1 0 = 0 := Nat.mul_zero cw
  have hY : cellY ch 1 0 = 0 := Nat.mul_zero ch
  have hin : 0 ≤ a % cw ∧ a % cw < 0 + cw ∧ 0 ≤ a / cw ∧ a / cw < 0 + ch :=
    ⟨Nat.zero_le _, by rwa [Nat.zero_add], Nat.zero_le _, by rwa [Nat.zero_add]⟩
  show place .copy (gridW cw 1) (cellX cw 1 0) (cellY ch 1 0) (img 0) cw ch (filled bg) a = img 0 a
  rw [hW, hX, hY, place_copy_inside hin, Nat.sub_zero, Nat.sub_zero, ← haddr]

/-- What is stored of an image is what it shows inside its size. -/
theorem storeImage_congr {W H : Nat} {img img' : Image} (s : State) (h : ∀ a, a < W * H → img a = img' a) :
    storeImage W H img s = storeImage W H img' s := by
  simp only [storeImage, mapM_range_congr h]

theorem forM_range_one (f : Nat → Perf Unit) : (List.range 1).forM f = f 0 := by
  show (f 0 >>= fun _ => Except.ok ()) = f 0
  cases f 0 <;> rfl

/-- Settles O24: with one meta-tile the grid checks pass, the loops are one META's checks, and the grid's image is the
copied meta-tile itself. -/
theorem metaGridOfOneIsMeta : Obligations.MetaGridOfOneIsMeta := by
  intro s msub hcnt hcap
  have hone : s.argCnt = 1 := hcnt
  have hgrid : checkGrid s metaW metaH = .ok () := checkGrid_ok.mpr (by rw [hone]; exact ⟨by decide, hcap⟩)
  have himage : ∀ bg a, a < metaW * metaH → metaGridImage s bg msub false a = metaImage s bg s.argOff msub a := by
    intro bg a ha
    rw [metaGridImage_eq_gridImage, hcnt]
    exact gridImage_copy_one ha
  have hstore : ∀ bg, storeImage (gridW metaW 1) (gridH metaH 1) (metaGridImage s bg msub false) s =
      storeImage metaW metaH (metaImage s bg s.argOff msub) s := fun bg => storeImage_congr s (himage bg)
  have hwrites : metaGridWrites msub false s = metaTileWrites msub s := by
    simp only [metaGridWrites, metaTileWrites, hgrid, perf_ok_bind, hone, forM_range_one, hstore]
    rfl
  exact congrArg (completeCommand s) hwrites

end Sys2Proof.Machine
end

section
/-! What an unwritten palette entry does to a command (R26, R115, D43), and that nothing else keeps an accepted command
from completing (R86). -/

namespace Sys2Proof.Machine

open Sys2Proof

/-- A command that comes to an unwritten entry once its checks have passed stops there. -/
theorem exec_of_unwritten {i : Instr} {s : State} (hlen : lenLegal s) (h : checksPass i s)
    (hstore : commandStore i s = .error (.fault .paletteEntryUnwritten)) :
    exec i s = .fault .paletteEntryUnwritten := by
  rw [exec_of_commandStore hlen h, hstore]; rfl

/-- A composite command stops at an unwritten backdrop, or else where its image does (R115). -/
theorem backdrop_bind_unwritten {s : State} {f : Word → Perf State}
    (hf : ∀ bg, f bg = .error (.fault .paletteEntryUnwritten)) :
    (palColour s 0 >>= f) = .error (.fault .paletteEntryUnwritten) := by
  cases h : Words.read s.pal 0 with
  | none => rw [palColour_of_unwritten h, perf_error_bind]
  | some bg => rw [backdrop_bind h, hf]

/-- A pixel of a tile that shows an unwritten entry cannot be read. -/
theorem decodeTile_of_unwritten {s : State} {off i : Nat} (hcap : off + 512 ≤ s.params.romCap)
    (h : Words.read s.pal (pixelNibble s off i).toNat = none) :
    decodeTile s off i = .error (.fault .paletteEntryUnwritten) := by
  rw [decodeTile_eq_palColour hcap, palColour_of_unwritten h]

/-- Settles O20: the pixel that shows the entry cannot be read, and no pixel ends in anything else. -/
theorem renderFaultsOnAnUnwrittenColour : Obligations.RenderFaultsOnAnUnwrittenColour := by
  intro s i hready hlen hrange hi hnone
  have hcap := hrange.trans hlen
  exact exec_of_unwritten hlen ⟨hready, hrange⟩
    (storeImage_unwritten hi (decodeTile_of_unwritten hcap hnone) fun _ _ => decodeTile_unwritten hcap)

/-- Settles O21: PAL[0] is the first thing each of the three reads once its checks have passed. -/
theorem compositesFaultOnAnUnwrittenBackdrop : Obligations.CompositesFaultOnAnUnwrittenBackdrop := by
  intro s hready hlen hnone
  have hbackdrop : ∀ f : Word → Perf State, (palColour s 0 >>= f) = .error (.fault .paletteEntryUnwritten) :=
    fun f => by rw [palColour_of_unwritten hnone, perf_error_bind]
  refine ⟨fun hcnt hcap hrange => ?compose, fun hrange msub => ?metaTile, fun hcnt hcap hrange msub mgrid => ?metaGrid⟩
  case compose => exact exec_of_unwritten hlen ⟨hready, hcnt, hcap, hrange⟩ (hbackdrop _)
  case metaTile => exact exec_of_unwritten hlen ⟨hready, hrange⟩ (hbackdrop _)
  case metaGrid => exact exec_of_unwritten hlen ⟨hready, hcnt, hcap, hrange⟩ (hbackdrop _)

/-- A pixel of a meta-tile whose sub-tile shows an unwritten entry cannot be read. -/
theorem metaImage_of_unwritten {s : State} {bg : Word} {d k i : Nat} {msub : Bool} (hlen : lenLegal s) (hk : k < 8)
    (hrange : subInRange s d k) (hi : i < 1024)
    (h : Words.read s.pal (pixelNibble s (wallTile s d k) i).toNat = none) :
    metaImage s bg d msub ((32 * (k % 2) + i / 32) * 128 + (32 * (k / 2) + i % 32)) =
      .error (.fault .paletteEntryUnwritten) := by
  obtain ⟨htile, hcap⟩ := subTile_of_inRange hlen hrange
  have hindex : i / 32 * 32 + i % 32 = i := by omega
  refine metaImage_pixel_error hk (by omega) (by omega) ?_
  rw [htile, hindex]
  exact decodeTile_of_unwritten hcap h

/-- Settles O22: the pixel that shows the entry stands somewhere in the image, cannot be read there, and no pixel ends in
anything else. -/
theorem compositesFaultOnAnUnwrittenColour : Obligations.CompositesFaultOnAnUnwrittenColour := by
  intro s i hready hlen hi
  refine ⟨fun k hk hcap hrange hnone => ?compose, fun msub k hk hrange hnone => ?metaTile,
    fun msub mgrid m k hm hk hcap hrange hnone => ?metaGrid⟩
  case compose =>
    have hx : i % 32 < 32 := by omega
    have hy : i / 32 < 32 := by omega
    have hindex : i / 32 * 32 + i % 32 = i := by omega
    obtain ⟨hcol, hrow⟩ := cell_of_pixel (cnt := cntOf s) hx hy hk
    have hpixel : decodeTile s (offOf s + 512 * k) (i / 32 * 32 + i % 32) = .error (.fault .paletteEntryUnwritten) := by
      rw [hindex]
      exact decodeTile_of_unwritten ((hrange k hk).trans hlen) hnone
    refine exec_of_unwritten hlen ⟨hready, by omega, hcap, hrange⟩ (backdrop_bind_unwritten fun bg => ?_)
    exact storeImage_unwritten (pixel_lt hcol hrow) (gridImage_pixel_error hk hx hy hpixel)
      (composeImage_unwritten hlen hrange)
  case metaTile =>
    refine exec_of_unwritten hlen ⟨hready, hrange⟩ (backdrop_bind_unwritten fun bg => ?_)
    exact storeImage_unwritten (pixel_lt (by omega) (by omega)) (metaImage_of_unwritten hlen hk (hrange k hk) hi hnone)
      (metaImage_unwritten hlen hrange)
  case metaGrid =>
    have hu : 32 * (k / 2) + i % 32 < 128 := by omega
    have hv : 32 * (k % 2) + i / 32 < 64 := by omega
    obtain ⟨hcol, hrow⟩ := cell_of_pixel (cnt := cntOf s) hu hv hm
    refine exec_of_unwritten hlen ⟨hready, by omega, hcap, hrange⟩ (backdrop_bind_unwritten fun bg => ?_)
    exact storeImage_unwritten (pixel_lt hcol hrow)
      (gridImage_pixel_error hm hu hv (metaImage_of_unwritten hlen hk (hrange m k hm hk) hi hnone))
      (metaGridImage_unwritten hlen hrange)

/-! ### Completion in a legal state -/

/-- A composite whose image fits can end early only at an unwritten entry when its image can only end so (R115). -/
theorem compositeStore_unwritten {s : State} {W H : Nat} {img : Word → Image} {e : Stop}
    (hfits : W * H ≤ s.params.canvasCap) (himg : ∀ bg a e, img bg a = .error e → unwrittenColour s e)
    (h : (palColour s 0 >>= fun bg => storeImage W H (img bg) s) = .error e) : unwrittenColour s e := by
  rcases perf_bind_error.mp h with h | ⟨bg, -, h⟩
  · exact palColour_unwritten (by decide) h
  · exact storeImage_error_of_fits hfits (himg bg) h

/-- Once its checks have passed a command can end early only at an unwritten entry. -/
theorem commandStore_unwritten {i : Instr} {s : State} {e : Stop} (hlen : lenLegal s)
    (hcap : 8192 ≤ s.params.canvasCap) (hpass : checksPass i s) (h : commandStore i s = .error e) :
    unwrittenColour s e := by
  cases i with
  | build => cases h
  | render =>
    obtain ⟨-, hrange⟩ := hpass
    exact storeImage_error_of_fits (by omega) (fun _ _ => decodeTile_unwritten (hrange.trans hlen)) h
  | compose =>
    obtain ⟨-, -, hfits, hrange⟩ := hpass
    exact compositeStore_unwritten hfits (fun _ => composeImage_unwritten hlen hrange) h
  | metaTile msub =>
    obtain ⟨-, hrange⟩ := hpass
    exact compositeStore_unwritten (by omega) (fun _ => metaImage_unwritten hlen hrange) h
  | metaGrid msub mgrid =>
    obtain ⟨-, -, hfits, hrange⟩ := hpass
    exact compositeStore_unwritten hfits (fun _ => metaGridImage_unwritten hlen hrange) h

theorem completeCommand_eq_fault {s : State} {r : Perf State} {f : Fault} (h : completeCommand s r = .fault f) :
    r = .error (.fault f) := by
  rcases r with (e | g) | t
  · cases h
  · cases h; rfl
  · cases h

/-- While a command runs in a legal state, the latched ROMLEN is the register's (R25). -/
theorem lenLegal_of_inv {s : State} (h : s.Inv) (hbusy : s.status.busy = true) : lenLegal s := by
  rw [lenLegal, lenOf, h.latch_eq hbusy]
  exact h.romLen_le

/-- Settles O57: a fault of the engine's turn is a fault of a command whose checks have passed. -/
theorem theOnlyFaultIsAnUnwrittenColour : Obligations.TheOnlyFaultIsAnUnwrittenColour := by
  intro s f hinv h
  obtain ⟨-, -, hcap, -⟩ := hinv.params_legal
  cases hbusy : s.status.busy with
  | false => rw [engineTurn_of_idle hbusy] at h; cases h
  | true =>
    have hlen := lenLegal_of_inv hinv hbusy
    rw [engineTurn_of_busy hbusy] at h
    cases hd : decode s.latch.w with
    | error r => rw [perform_of_not_validWord (decode_error hd)] at h; cases h
    | ok i =>
      rw [perform_of_decode hd, exec_eq_completeCommand] at h
      have hwrites := completeCommand_eq_fault h
      have hpass := checksPass_of_fault hlen hwrites
      rw [commandWrites_of_checksPass hlen hpass] at hwrites
      obtain ⟨hfault, hready⟩ := commandStore_unwritten hlen hcap hpass hwrites
      cases hfault
      exact ⟨rfl, hready⟩

/-- The engine's turn is never refused (R86). -/
theorem engineTurn_ne_refused (s : State) (r : Refusal) : engineTurn s ≠ .refused r := by
  unfold engineTurn perform
  split
  · split
    · rw [exec_eq_completeCommand]; exact completeCommand_ne_refused _ _ _
    · simp
  · simp

/-- Settles O56: the engine's turn is not refused, and its only fault needs an unwritten entry. -/
theorem everyAcceptedCommandCompletes : Obligations.EveryAcceptedCommandCompletes := by
  intro s hinv hready hbusy
  cases h : engineTurn s with
  | next t => exact ⟨t, rfl, perform_completes ((engineTurn_of_busy hbusy).symm.trans h)⟩
  | fault f => exact absurd hready (theOnlyFaultIsAnUnwrittenColour s f hinv h).2
  | refused r => exact absurd h (engineTurn_ne_refused s r)

end Sys2Proof.Machine
end

section
/-! The first range out of range (R68, R84, R85, R90, R96). -/

namespace Sys2Proof.Machine

open Sys2Proof

/-- A range error completes with its start in ERRADDR (R90, R99). -/
theorem exec_of_outOfRange {i : Instr} {s : State} {a : Nat} {info : Word}
    (h : commandWrites i s = .error (.raised ⟨.outOfRange, a, info⟩)) :
    exec i s = .next (failedWith s 3 (BitVec.ofNat 32 a) info) := by
  rw [exec_eq_completeCommand, h]; rfl

/-- Settles O31: RENDER's one range fails, or COMPOSE's loop is ended by its first tile that does. -/
theorem firstTileOutOfRangeIsReported : Obligations.FirstTileOutOfRangeIsReported := by
  intro s hready
  have hpre := checkPreconditions_of_decodeReady hready
  refine ⟨fun hrange => ?render, fun k hk hcap hbefore hrange => ?compose⟩
  case render =>
    have hr : checkRange s s.argOff tileBytes (tileInfo 0 0) = .error (.raised ⟨.outOfRange, s.argOff, 0⟩) :=
      checkRange_error.mpr ⟨hrange, rfl⟩
    have hwrites : commandWrites .render s = .error (.raised ⟨.outOfRange, s.argOff, 0⟩) := by
      simp only [commandWrites, renderWrites, hpre, hr, perf_ok_bind, perf_error_bind]
    rw [exec_eq_completeCommand, hwrites]
    exact congrArg _ (errorCompletion_at_offset .outOfRange s)
  case compose =>
    have hinfo : tileInfo k 0 = BitVec.ofNat 32 k := tileInfo_eq (hk.trans s.latch.cnt.isLt) (by decide)
    have hg : checkGrid s tileSide tileSide = .ok () := checkGrid_ok.mpr ⟨Nat.ne_zero_of_lt hk, hcap⟩
    have hr : (List.range s.argCnt).forM (fun k => checkRange s (tileOff s.argOff k) tileBytes (tileInfo k 0)) =
        .error (.raised ⟨.outOfRange, tileOff s.argOff k, tileInfo k 0⟩) :=
      forM_range_error.mpr ⟨k, hk, fun j hj => checkRange_ok.mpr (hbefore j hj), checkRange_error.mpr ⟨hrange, rfl⟩⟩
    rw [← hinfo]
    refine exec_of_outOfRange ?_
    simp only [commandWrites, composeWrites, hpre, hg, hr, perf_ok_bind, perf_error_bind]
    rfl

/-! ### Meta-tiles -/

/-- The range checks of sub-tile `k`: its field, and the tile the field names (R84). -/
def checkSub (s : State) (m d k : Nat) : Perf Unit := do
  checkRange s (fieldOff d k) fieldBytes (fieldInfo m k)
  let t ← subOff s d k
  checkRange s t tileBytes (tileInfo m k)

theorem checkMeta_eq_forM (s : State) (m d : Nat) : checkMeta s m d = (List.range 8).forM (checkSub s m d) := rfl

/-- The error META and METAGRID raise for sub-tile `k` of meta-tile `m`, at `d`, when it is out of range: of its field if
that is out of range, and else of the tile it names. -/
def subError (s : State) (m d k : Nat) : CmdError :=
  if lenOf s < d + 2 * k + 2 then ⟨.outOfRange, d + 2 * k, fieldInfo m k⟩
  else ⟨.outOfRange, wallTile s d k, tileInfo m k⟩

section MetaTile

variable {s : State} {m d k : Nat} (hlen : lenLegal s)
include hlen

theorem subOff_of_field (hfield : d + 2 * k + 2 ≤ lenOf s) : subOff s d k = .ok (wallTile s d k) :=
  have hcap : lenOf s ≤ s.params.romCap := hlen
  subOff_of_lt (by omega)

theorem checkSub_of_inRange (h : subInRange s d k) : checkSub s m d k = .ok () := by
  obtain ⟨hfield, htile⟩ := h
  have hf : checkRange s (fieldOff d k) fieldBytes (fieldInfo m k) = .ok () := checkRange_ok.mpr hfield
  simp only [checkSub, hf, subOff_of_field hlen hfield, perf_ok_bind]
  exact checkRange_ok.mpr htile

theorem checkSub_of_outOfRange (h : ¬ subInRange s d k) :
    checkSub s m d k = .error (.raised (subError s m d k)) := by
  unfold subError
  split_ifs with hfield
  · have hf : checkRange s (fieldOff d k) fieldBytes (fieldInfo m k) =
        .error (.raised ⟨.outOfRange, d + 2 * k, fieldInfo m k⟩) := checkRange_error.mpr ⟨hfield, rfl⟩
    simp only [checkSub, hf, perf_error_bind]
  · have hfield' : d + 2 * k + 2 ≤ lenOf s := Nat.not_lt.mp hfield
    have hf : checkRange s (fieldOff d k) fieldBytes (fieldInfo m k) = .ok () := checkRange_ok.mpr hfield'
    have htile : lenOf s < wallTile s d k + 512 := Nat.not_le.mp fun htile => h ⟨hfield', htile⟩
    simp only [checkSub, hf, subOff_of_field hlen hfield', perf_ok_bind]
    exact checkRange_error.mpr ⟨htile, rfl⟩

/-- A meta-tile's checks end at its first sub-tile out of range (R84). -/
theorem checkMeta_of_first (hk : k < 8) (hbefore : ∀ j, j < k → subInRange s d j) (h : ¬ subInRange s d k) :
    checkMeta s m d = .error (.raised (subError s m d k)) := by
  rw [checkMeta_eq_forM, forM_range_error]
  exact ⟨k, hk, fun j hj => checkSub_of_inRange hlen (hbefore j hj), checkSub_of_outOfRange hlen h⟩

/-- META's error is its meta-tile's, which is number 0 (R84, R96). -/
theorem metaTileWrites_of_first {msub : Bool} (hready : decodeReady s) (hk : k < 8)
    (hbefore : ∀ j, j < k → subInRange s (offOf s) j) (h : ¬ subInRange s (offOf s) k) :
    commandWrites (.metaTile msub) s = .error (.raised (subError s 0 (offOf s) k)) := by
  have hpre := checkPreconditions_of_decodeReady hready
  have hr : checkMeta s 0 s.argOff = .error (.raised (subError s 0 (offOf s) k)) :=
    checkMeta_of_first hlen hk hbefore h
  simp only [commandWrites, metaTileWrites, hpre, hr, perf_ok_bind, perf_error_bind]

/-- METAGRID's error is that of its first meta-tile out of range (R85, R96). -/
theorem metaGridWrites_of_first {msub mgrid : Bool} (hready : decodeReady s) (hm : m < cntOf s) (hk : k < 8)
    (hcap : 128 * colsOf (cntOf s) * (64 * rowsOf (cntOf s)) ≤ s.params.canvasCap)
    (hcells : ∀ l j, l < m → j < 8 → subInRange s (offOf s + 16 * l) j)
    (hbefore : ∀ j, j < k → subInRange s (offOf s + 16 * m) j) (h : ¬ subInRange s (offOf s + 16 * m) k) :
    commandWrites (.metaGrid msub mgrid) s = .error (.raised (subError s m (offOf s + 16 * m) k)) := by
  have hpre := checkPreconditions_of_decodeReady hready
  have hg : checkGrid s metaW metaH = .ok () := checkGrid_ok.mpr ⟨Nat.ne_zero_of_lt hm, hcap⟩
  have hr : (List.range s.argCnt).forM (fun m => checkMeta s m (descOff s.argOff m)) =
      .error (.raised (subError s m (offOf s + 16 * m) k)) :=
    forM_range_error.mpr ⟨m, hm, fun l hl => (checkMeta_ok hlen).mpr fun j => hcells l j hl,
      checkMeta_of_first hlen hk hbefore h⟩
  simp only [commandWrites, metaGridWrites, hpre, hg, hr, perf_ok_bind, perf_error_bind]

end MetaTile

theorem subError_field {s : State} {m d k : Nat} (hm : m < 65536) (hk : k < 8) (h : lenOf s < d + 2 * k + 2) :
    subError s m d k = ⟨.outOfRange, d + 2 * k, BitVec.ofNat 32 (m + k * 2 ^ 16 + 2 ^ 20)⟩ := by
  rw [subError, if_pos h, fieldInfo_eq hm hk]

theorem subError_tile {s : State} {m d k : Nat} (hm : m < 65536) (hk : k < 8) (h : d + 2 * k + 2 ≤ lenOf s) :
    subError s m d k = ⟨.outOfRange, wallTile s d k, BitVec.ofNat 32 (m + k * 2 ^ 16)⟩ := by
  rw [subError, if_neg (Nat.not_lt.mpr h), tileInfo_eq hm hk]

/-- Settles O32: the first sub-tile out of range is so by its field or by the tile it names. -/
theorem firstMetaRangeOutOfRangeIsReported : Obligations.FirstMetaRangeOutOfRangeIsReported := by
  intro s msub k hready hlen hk hbefore
  refine ⟨fun hfield => ?_, fun hfield htile => ?_⟩
  · have h := metaTileWrites_of_first (msub := msub) hlen hready hk hbefore fun h => by have := h.1; omega
    rw [subError_field (by decide) hk hfield, Nat.zero_add] at h
    exact exec_of_outOfRange h
  · have h := metaTileWrites_of_first (msub := msub) hlen hready hk hbefore fun h => by have := h.2; omega
    rw [subError_tile (by decide) hk hfield, Nat.zero_add] at h
    exact exec_of_outOfRange h

/-- Settles O33: as for META, in the first meta-tile that is out of range. -/
theorem firstMetaGridRangeOutOfRangeIsReported : Obligations.FirstMetaGridRangeOutOfRangeIsReported := by
  intro s msub mgrid m k hready hlen hm hk hcap hcells hbefore
  have hunit : m < 65536 := hm.trans s.latch.cnt.isLt
  refine ⟨fun hfield => ?_, fun hfield htile => ?_⟩
  · have h := metaGridWrites_of_first (msub := msub) (mgrid := mgrid) hlen hready hm hk hcap hcells hbefore
      fun h => by have := h.1; omega
    rw [subError_field hunit hk hfield] at h
    exact exec_of_outOfRange h
  · have h := metaGridWrites_of_first (msub := msub) (mgrid := mgrid) hlen hready hm hk hcap hcells hbefore
      fun h => by have := h.2; omega
    rw [subError_tile hunit hk hfield] at h
    exact exec_of_outOfRange h

end Sys2Proof.Machine
end

section
/-! No byte at or beyond ROMLEN is read (R32): what each part of a perform step reads of a ROM that agrees with another
below ROMLEN. -/

namespace Sys2Proof.Machine

open Sys2Proof

/-! ### Parts that come to one end -/

/-- Two computations that go on alike after each value of the first part. -/
theorem perf_bind_congr {α β : Type} {x : Perf α} {f g : α → Perf β} (h : ∀ a, x = .ok a → f a = g a) :
    (x >>= f) = (x >>= g) := by
  cases x with
  | error e => rfl
  | ok a => exact h a rfl

theorem forM_range_congr {n : Nat} {f g : Nat → Perf Unit} (h : ∀ k, k < n → f k = g k) :
    (List.range n).forM f = (List.range n).forM g := by
  have gen : ∀ xs : List Nat, (∀ k ∈ xs, f k = g k) → xs.forM f = xs.forM g := by
    intro xs
    induction xs with
    | nil => exact fun _ => rfl
    | cons x xs ih =>
      intro hxs
      rw [List.forall_mem_cons] at hxs
      show (f x >>= fun _ => xs.forM f) = (g x >>= fun _ => xs.forM g)
      rw [hxs.1, ih hxs.2]
  exact gen _ fun k hk => h k (List.mem_range.mp hk)

/-- Placements of the same cells. -/
theorem placeAll_congr {n : Nat} {put put' : Nat → Image → Image} (h : ∀ k, k < n → put k = put' k) (dst : Image) :
    placeAll n put dst = placeAll n put' dst := by
  induction n with
  | zero => rfl
  | succ n ih => rw [placeAll_succ, placeAll_succ, h n (Nat.lt_succ_self n), ih fun k hk => h k (by omega)]

theorem gridImage_congr {mode : Mode} {cw ch cnt : Nat} {img img' : Nat → Image} (bg : Word)
    (h : ∀ k, k < cnt → img k = img' k) : gridImage mode cw ch cnt img bg = gridImage mode cw ch cnt img' bg :=
  placeAll_congr (fun k hk => by rw [h k hk]) _

/-! ### Another ROM -/

/-- The state with its ROM replaced. -/
def withRom (rom : Memory) (s : State) : State := { s with rom := rom }

/-- The ROM replaced in the state a perform step leaves. -/
def onResult (rom : Memory) (r : Perf State) : Perf State := r.map (withRom rom)

/-- A first part that is the same in both, and then what each goes on with. -/
theorem bind_withRom {α : Type} {rom : Memory} {x y : Perf α} {f g : α → Perf State} (hx : x = y)
    (hf : ∀ a, y = .ok a → f a = onResult rom (g a)) : (x >>= f) = onResult rom (y >>= g) := by
  subst hx
  cases x with
  | error e => rfl
  | ok a => exact hf a rfl

/-- A completion does not look at the ROM (R99, R100). -/
theorem completeCommand_withRom (rom : Memory) (s : State) (r : Perf State) :
    completeCommand (withRom rom s) (onResult rom r) = withRomOf rom (completeCommand s r) := by
  rcases r with (e | f) | t <;> rfl

/-- Storing an image does not look at the ROM. -/
theorem storeImage_withRom {rom : Memory} {W H : Nat} {img img' : Image} {s : State} (himg : img' = img) :
    storeImage W H img' (withRom rom s) = onResult rom (storeImage W H img s) := by
  refine bind_withRom (by rw [himg]) fun ws _ => ?_
  by_cases hcap : W * H ≤ s.params.canvasCap
  · rw [if_pos hcap, if_pos (show W * H ≤ (withRom rom s).params.canvasCap from hcap)]; rfl
  · rw [if_neg hcap, if_neg (show ¬ W * H ≤ (withRom rom s).params.canvasCap from hcap)]; rfl

/-- Every field of the descriptor at `d` and every tile a field names end at or below ROMLEN (R84). -/
def metaBelow (s : State) (d : Nat) : Prop :=
  ∀ k, k < 8 → d + 2 * k + 2 ≤ lenOf s ∧ ∀ t, subOff s d k = .ok t → t + 512 ≤ lenOf s

theorem metaBelow_of_checkMeta {s : State} {m d : Nat} (h : checkMeta s m d = .ok ()) : metaBelow s d := by
  intro k hk
  obtain ⟨⟨⟩, hfield, hsub⟩ := perf_bind_ok.mp (forM_ok.mp h k (List.mem_range.mpr hk))
  refine ⟨checkRange_ok.mp hfield, fun t ht => ?_⟩
  rw [ht, perf_ok_bind] at hsub
  exact checkRange_ok.mp hsub

/-- The two ROMs hold the same bytes below ROMLEN. -/
def romAgrees (s : State) (rom : Memory) : Prop := ∀ a, a < lenOf s → Memory.read rom a = Memory.read s.rom a

section Reads

variable {s : State} {rom : Memory} (h : romAgrees s rom)
include h

theorem romByte_withRom {a : Nat} (ha : a < lenOf s) : romByte (withRom rom s) a = romByte s a := by
  have hread : Memory.read (withRom rom s).rom a = Memory.read s.rom a := h a ha
  rw [romByte, hread]; rfl

theorem nib_withRom {off : Nat} (hoff : off + 512 ≤ lenOf s) (j : BitVec 10) :
    nib (withRom rom s) off j = nib s off j := by
  have hbyte := stream_byte_lt j
  rw [nib, nib, romByte_withRom h (by omega)]

theorem decodeTile_withRom {off : Nat} (hoff : off + 512 ≤ lenOf s) :
    decodeTile (withRom rom s) off = decodeTile s off := by
  funext i
  rw [decodeTile, decodeTile, nib_withRom h hoff]
  rfl

theorem checkNibbles_withRom {off : Nat} (hoff : off + 512 ≤ lenOf s) (info : Word) :
    checkNibbles (withRom rom s) off info = checkNibbles s off info :=
  forM_range_congr fun j _ => by rw [nib_withRom h hoff]; rfl

theorem subOff_withRom {d k : Nat} (hfield : d + 2 * k + 2 ≤ lenOf s) :
    subOff (withRom rom s) d k = subOff s d k := by
  have hhi : fieldOff d k < lenOf s := by unfold fieldOff fieldBytes; omega
  have hlo : fieldOff d k + 1 < lenOf s := by unfold fieldOff fieldBytes; omega
  simp only [subOff, subIndex, romField, romByte_withRom h hhi, romByte_withRom h hlo]

/-- The field of a sub-tile is read only once its range has passed, so the range checks read nothing beyond ROMLEN. -/
theorem checkMeta_withRom (m d : Nat) : checkMeta (withRom rom s) m d = checkMeta s m d := by
  refine forM_range_congr fun k _ => perf_bind_congr fun _ hfield => ?_
  rw [subOff_withRom h (checkRange_ok.mp hfield)]
  rfl

theorem checkMetaNibbles_withRom {m d : Nat} (hbelow : metaBelow s d) :
    checkMetaNibbles (withRom rom s) m d = checkMetaNibbles s m d := by
  refine forM_range_congr fun k hk => ?_
  obtain ⟨hfield, htile⟩ := hbelow k hk
  rw [subOff_withRom h hfield]
  exact perf_bind_congr fun t ht => checkNibbles_withRom h (htile t ht) _

theorem subTile_withRom {d k : Nat} (hk : k < 8) (hbelow : metaBelow s d) :
    subTile (withRom rom s) d k = subTile s d k := by
  obtain ⟨hfield, htile⟩ := hbelow k hk
  funext i
  rw [subTile, subTile, subOff_withRom h hfield]
  exact perf_bind_congr fun t ht => by rw [decodeTile_withRom h (htile t ht)]

theorem metaImage_withRom {d : Nat} (hbelow : metaBelow s d) (bg : Word) (msub : Bool) :
    metaImage (withRom rom s) bg d msub = metaImage s bg d msub :=
  placeAll_congr (fun k hk => by rw [subTile_withRom h hk hbelow]) _

theorem composeImage_withRom (hrange : ∀ k, k < cntOf s → offOf s + 512 * k + 512 ≤ lenOf s) (bg : Word) :
    composeImage (withRom rom s) bg = composeImage s bg :=
  gridImage_congr bg fun k hk => decodeTile_withRom h (hrange k hk)

theorem metaGridImage_withRom (hbelow : ∀ m, m < cntOf s → metaBelow s (offOf s + 16 * m)) (bg : Word)
    (msub mgrid : Bool) : metaGridImage (withRom rom s) bg msub mgrid = metaGridImage s bg msub mgrid :=
  gridImage_congr bg fun m hm => metaImage_withRom h (hbelow m hm) bg msub

/-! ### The commands -/

/-- The writes of each command, check by check: what passed the range checks lies below ROMLEN. -/
theorem commandWrites_withRom (i : Instr) :
    commandWrites i (withRom rom s) = onResult rom (commandWrites i s) := by
  cases i with
  | build => rfl
  | render =>
    refine bind_withRom rfl fun _ _ => bind_withRom rfl fun _ hr => ?_
    have hrange : offOf s + 512 ≤ lenOf s := checkRange_ok.mp hr
    exact bind_withRom (checkNibbles_withRom h hrange _) fun _ _ => storeImage_withRom (decodeTile_withRom h hrange)
  | compose =>
    refine bind_withRom rfl fun _ _ => bind_withRom rfl fun _ _ => bind_withRom rfl fun _ hr => ?_
    have hrange : ∀ k, k < cntOf s → offOf s + 512 * k + 512 ≤ lenOf s :=
      fun k hk => checkRange_ok.mp (forM_ok.mp hr k (List.mem_range.mpr hk))
    exact bind_withRom (forM_range_congr fun k hk => checkNibbles_withRom h (hrange k hk) _) fun _ _ =>
      bind_withRom rfl fun bg _ => storeImage_withRom (composeImage_withRom h hrange bg)
  | metaTile msub =>
    refine bind_withRom rfl fun _ _ => bind_withRom (checkMeta_withRom h _ _) fun _ hr => ?_
    have hbelow : metaBelow s (offOf s) := metaBelow_of_checkMeta hr
    exact bind_withRom (checkMetaNibbles_withRom h hbelow) fun _ _ =>
      bind_withRom rfl fun bg _ => storeImage_withRom (metaImage_withRom h hbelow bg msub)
  | metaGrid msub mgrid =>
    refine bind_withRom rfl fun _ _ => bind_withRom rfl fun _ _ =>
      bind_withRom (forM_range_congr fun m _ => checkMeta_withRom h _ _) fun _ hr => ?_
    have hbelow : ∀ m, m < cntOf s → metaBelow s (offOf s + 16 * m) :=
      fun m hm => metaBelow_of_checkMeta (forM_ok.mp hr m (List.mem_range.mpr hm))
    exact bind_withRom (forM_range_congr fun m hm => checkMetaNibbles_withRom h (hbelow m hm)) fun _ _ =>
      bind_withRom rfl fun bg _ => storeImage_withRom (metaGridImage_withRom h hbelow bg msub mgrid)

end Reads

/-- Settles O60: the commands read the two ROMs alike, and complete alike. -/
theorem noByteBeyondRomLenIsRead : Obligations.NoByteBeyondRomLenIsRead := by
  intro i s rom h
  show exec i (withRom rom s) = withRomOf rom (exec i s)
  rw [exec_eq_completeCommand, exec_eq_completeCommand, commandWrites_withRom h, completeCommand_withRom]

end Sys2Proof.Machine
end
